-- ==== Sys2Proof/Word.lean ====
section
/-! DEFINITION. The word types of the machine (00_scope.md R4): every value is unsigned (section 5.1). -/

namespace Sys2Proof

/-- A memory cell, a general register or a timer: 8 bits (R4 `MEM_CELL`, `XLEN`, `TIMER_WIDTH`). -/
abbrev Byte := BitVec 8

/-- An instruction word, the index register, the program counter or a stack entry: 16 bits (R4, R19). -/
abbrev Word16 := BitVec 16

/-- The selector of a general register, 0 to 15 (10_state.md R11). -/
abbrev Reg := Fin 16

/-- The code of a logical key, 0x0 to 0xF (45_keypad_and_timers.md R205). -/
abbrev Key := Fin 16

end Sys2Proof
end

