-- ==== Sys2Proof/Config.lean ====
section
/-! DEFINITION. What is fixed for a machine and what the spec leaves open: the fixed parameters of 00_scope.md R4, the
open parameters of R5, and the free values. -/

namespace Sys2Proof

/-- The policies for SKP and SKNP when `V[x]` is above 0xF (45_keypad_and_timers.md R192). -/
inductive KeyIndexPolicy where
  | fault
  | mask
  | notHeld
  deriving DecidableEq, Repr

/-- The open parameters of 00_scope.md R5 that stay fixed while a machine runs. DESIGN CHOICE (log 4): they stand in
`State`, so that a statement about every state holds for every setting. Their defaults are in Machine/Defaults.lean. -/
structure Params where
  strictDecode   : Bool
  keyIndexPolicy : KeyIndexPolicy
  deriving DecidableEq, Repr

/-- The parameter FONT (R5, 20_memory.md R47): 16 glyphs of 5 bytes, glyph `d` at address `d * 5`. -/
abbrev Font := Vector (Vector Byte 5) 16

namespace Config

/-- `MEM_SIZE`: addresses 0x000 to 0xFFF (R4, 20_memory.md R40). -/
abbrev memSize : Nat := 4096

/-- `STACK_DEPTH` (R4). -/
abbrev stackDepth : Nat := 16

/-- `PROG_BASE`: where a program is loaded and entered (R4). -/
abbrev progBase : Nat := 0x200

/-- `MAX_ROM`: the longest program image (R4). -/
abbrev maxRom : Nat := 3584

/-- Free value: the byte the random source answers for a draw (42_register_alu.md R138: "a free input of this Step ...
under no law"; log 2). -/
opaque randomByte : Nat → Byte

/-- Free value: the `raw` field of the record of a fetch fault, where no word was fetched (60_exceptions.md R221: "the
field is unspecified"; 93_implementation_defined.md U15; log 3). -/
opaque unfetchedRaw : Nat → Word16

end Config
end Sys2Proof
end

