-- ==== Sys2Proof/Machine/Defaults.lean ====
section
/-! DEFINITION. The defaults the spec gives the open parameters (00_scope.md R5), and what memory holds after a Reset
with them and an empty ROM. -/

namespace Sys2Proof.Machine

/-- The defaults of R5: `STRICT_DECODE` false (30_encoding.md R66), `KEY_INDEX_POLICY` fault (45_keypad_and_timers.md R192). -/
def defaultParams : Params where
  strictDecode   := false
  keyIndexPolicy := .fault

/-- The default FONT, the table of 20_memory.md R47 (PRESUMED by the spec from general knowledge, its G2; log 5). -/
def defaultFont : Font :=
  #v[#v[0xF0, 0x90, 0x90, 0x90, 0xF0],
     #v[0x20, 0x60, 0x20, 0x20, 0x70],
     #v[0xF0, 0x10, 0xF0, 0x80, 0xF0],
     #v[0xF0, 0x10, 0xF0, 0x10, 0xF0],
     #v[0x90, 0x90, 0xF0, 0x10, 0x10],
     #v[0xF0, 0x80, 0xF0, 0x10, 0xF0],
     #v[0xF0, 0x80, 0xF0, 0x90, 0xF0],
     #v[0xF0, 0x10, 0x20, 0x40, 0x40],
     #v[0xF0, 0x90, 0xF0, 0x90, 0xF0],
     #v[0xF0, 0x90, 0xF0, 0x10, 0xF0],
     #v[0xF0, 0x90, 0xF0, 0x90, 0x90],
     #v[0xE0, 0x90, 0xE0, 0x90, 0xE0],
     #v[0xF0, 0x80, 0x80, 0x80, 0xF0],
     #v[0xE0, 0x90, 0x90, 0x90, 0xE0],
     #v[0xF0, 0x80, 0xF0, 0x80, 0xF0],
     #v[0xF0, 0x80, 0xF0, 0x80, 0x80]]

/-- Byte `a` of a font, glyph `d` standing at `d * 5` (20_memory.md R48); 0 past its 80 bytes. -/
def fontByte (font : Font) (a : Nat) : Byte :=
  if h : a < 80 then (font[a / 5]'(by omega))[a % 5]'(by omega) else 0

/-- What an address that memory does not list reads as: the default FONT at 0x000 to 0x04F and zero elsewhere, which is
memory after a Reset with the default FONT and an empty ROM (10_state.md R34, 20_memory.md R47, R48; log 5). -/
def background (a : Nat) : Byte := fontByte defaultFont a

end Sys2Proof.Machine
end

