-- ==== Sys2Proof/Syntax.lean ====
section
/-! DEFINITION. The instructions: one constructor per row of 30_encoding.md R64, in its order. Fields are the unsigned
bit-fields of R61 and R70. Two kinds of field are carried but never read by a meaning, so that no bit of a word is lost:
`d`, the bits the dispatch ignores (R66), and the `y` of SHR and SHL, "present in the word and ignored"
(42_register_alu.md R130, R132) (log 13). -/

namespace Sys2Proof

inductive Instr where
  | cls      (d : BitVec 4)              -- 00E0  CLS
  | ret      (d : BitVec 4)              -- 00EE  RET
  | jp       (nnn : BitVec 12)           -- 1nnn  JP addr
  | call     (nnn : BitVec 12)           -- 2nnn  CALL addr
  | seVxKk   (x : Reg) (kk : Byte)       -- 3xkk  SE Vx,kk
  | sneVxKk  (x : Reg) (kk : Byte)       -- 4xkk  SNE Vx,kk
  | seVxVy   (x y : Reg) (d : BitVec 4)  -- 5xy0  SE Vx,Vy
  | ldVxKk   (x : Reg) (kk : Byte)       -- 6xkk  LD Vx,kk
  | addVxKk  (x : Reg) (kk : Byte)       -- 7xkk  ADD Vx,kk
  | ldVxVy   (x y : Reg)                 -- 8xy0  LD Vx,Vy
  | orVxVy   (x y : Reg)                 -- 8xy1  OR Vx,Vy
  | andVxVy  (x y : Reg)                 -- 8xy2  AND Vx,Vy
  | xorVxVy  (x y : Reg)                 -- 8xy3  XOR Vx,Vy
  | addVxVy  (x y : Reg)                 -- 8xy4  ADD Vx,Vy
  | subVxVy  (x y : Reg)                 -- 8xy5  SUB Vx,Vy
  | shrVx    (x y : Reg)                 -- 8xy6  SHR Vx
  | subnVxVy (x y : Reg)                 -- 8xy7  SUBN Vx,Vy
  | shlVx    (x y : Reg)                 -- 8xyE  SHL Vx
  | sneVxVy  (x y : Reg) (d : BitVec 4)  -- 9xy0  SNE Vx,Vy
  | ldIAddr  (nnn : BitVec 12)           -- Annn  LD I,addr
  | jpV0Addr (nnn : BitVec 12)           -- Bnnn  JP V0,addr
  | rndVxKk  (x : Reg) (kk : Byte)       -- Cxkk  RND Vx,kk
  | drw      (x y : Reg) (n : Fin 16)    -- Dxyn  DRW Vx,Vy,n
  | skpVx    (x : Reg)                   -- Ex9E  SKP Vx
  | sknpVx   (x : Reg)                   -- ExA1  SKNP Vx
  | ldVxDt   (x : Reg)                   -- Fx07  LD Vx,DT
  | ldVxK    (x : Reg)                   -- Fx0A  LD Vx,K
  | ldDtVx   (x : Reg)                   -- Fx15  LD DT,Vx
  | ldStVx   (x : Reg)                   -- Fx18  LD ST,Vx
  | addIVx   (x : Reg)                   -- Fx1E  ADD I,Vx
  | ldFVx    (x : Reg)                   -- Fx29  LD F,Vx
  | ldBVx    (x : Reg)                   -- Fx33  LD B,Vx
  | ldMemVx  (x : Reg)                   -- Fx55  LD [I],Vx
  | ldVxMem  (x : Reg)                   -- Fx65  LD Vx,[I]
  deriving DecidableEq, Repr

end Sys2Proof
end

