-- ==== Sys2Proof/WellFormed.lean ====
section
/-! DEFINITION. Which instruction terms are instructions of the machine. Every field has the width of R61 by its type;
what is left to check is the ignored bits: with STRICT_DECODE they must be zero, without it they are free
(30_encoding.md R66). -/

namespace Sys2Proof

/-- The bits of the word that the dispatch ignores (30_encoding.md R66); 0 for the rows that have none. -/
def Instr.ignoredBits (i : Instr) : BitVec 4 :=
  match i with
  | .cls d => d
  | .ret d => d
  | .seVxVy _ _ d => d
  | .sneVxVy _ _ d => d
  | .jp _ => 0
  | .call _ => 0
  | .seVxKk _ _ => 0
  | .sneVxKk _ _ => 0
  | .ldVxKk _ _ => 0
  | .addVxKk _ _ => 0
  | .ldVxVy _ _ => 0
  | .orVxVy _ _ => 0
  | .andVxVy _ _ => 0
  | .xorVxVy _ _ => 0
  | .addVxVy _ _ => 0
  | .subVxVy _ _ => 0
  | .shrVx _ _ => 0
  | .subnVxVy _ _ => 0
  | .shlVx _ _ => 0
  | .ldIAddr _ => 0
  | .jpV0Addr _ => 0
  | .rndVxKk _ _ => 0
  | .drw _ _ _ => 0
  | .skpVx _ => 0
  | .sknpVx _ => 0
  | .ldVxDt _ => 0
  | .ldVxK _ => 0
  | .ldDtVx _ => 0
  | .ldStVx _ => 0
  | .addIVx _ => 0
  | .ldFVx _ => 0
  | .ldBVx _ => 0
  | .ldMemVx _ => 0
  | .ldVxMem _ => 0

/-- An instruction is well formed when its ignored bits are zero or the decoder does not look at them (R66). -/
def Instr.wellFormed (strict : Bool) (i : Instr) : Bool :=
  !strict || i.ignoredBits == 0

end Sys2Proof
end

