-- ==== Sys2Proof/Decode.lean ====
section
/-! DEFINITION. The decoder, total on every word and on any bytes, and the encoder. The opcode numbers are those of
30_encoding.md R64 (PRESUMED by the spec from general knowledge, its G1; log 6). -/

namespace Sys2Proof

/-! ## Fields of a word (30_encoding.md R61) -/

/-- `(raw & 0xF000) >> 12` -/
def fieldGroup (raw : Word16) : BitVec 4 := raw.extractLsb' 12 4

/-- `(raw & 0x0F00) >> 8`, as bits -/
def fieldXBits (raw : Word16) : BitVec 4 := raw.extractLsb' 8 4

/-- `(raw & 0x00F0) >> 4`, as bits -/
def fieldYBits (raw : Word16) : BitVec 4 := raw.extractLsb' 4 4

/-- `raw & 0x000F`, as bits -/
def fieldNBits (raw : Word16) : BitVec 4 := raw.extractLsb' 0 4

/-- `x`, the first register selector -/
def fieldX (raw : Word16) : Reg := (fieldXBits raw).toFin

/-- `y`, the second register selector -/
def fieldY (raw : Word16) : Reg := (fieldYBits raw).toFin

/-- `n`, the sprite height -/
def fieldN (raw : Word16) : Fin 16 := (fieldNBits raw).toFin

/-- `kk`, the low byte: `raw & 0x00FF` -/
def fieldKk (raw : Word16) : Byte := raw.extractLsb' 0 8

/-- `nnn`: `raw & 0x0FFF` -/
def fieldNnn (raw : Word16) : BitVec 12 := raw.extractLsb' 0 12

/-- The big-endian composition of two bytes: the first is bits 15 to 8 (20_memory.md R43, R45). -/
def joinBytes (hi lo : Byte) : Word16 := hi ++ lo

/-- The byte of a word that stands at the lower address (R45). -/
def highByte (raw : Word16) : Byte := raw.extractLsb' 8 8

/-- The byte of a word that stands at the higher address (R45). -/
def lowByte (raw : Word16) : Byte := raw.extractLsb' 0 8

/-! ## Decoder -/

/-- Why the decoder gives no instruction. -/
inductive DecodeError where
  /-- The word matches no row: the distinguished "unknown" variant of 30_encoding.md R67. -/
  | unknown (raw : Word16)
  /-- Fewer than the two bytes of an instruction (R60). -/
  | truncated
  deriving DecidableEq, Repr

/-- Groups 0x5 and 0x9, and CLS and RET, ignore four bits unless STRICT_DECODE (R66). -/
def ignoring (strict : Bool) (raw : Word16) (d : BitVec 4) (i : Instr) : Except DecodeError Instr :=
  if strict && d != 0 then .error (.unknown raw) else .ok i

/-- Group 0x0: secondary dispatch on the low byte (R63). -/
def decodeGroup0 (strict : Bool) (raw : Word16) : Except DecodeError Instr :=
  match (fieldKk raw).toNat with
  | 0xE0 => ignoring strict raw (fieldXBits raw) (.cls (fieldXBits raw))
  | 0xEE => ignoring strict raw (fieldXBits raw) (.ret (fieldXBits raw))
  | _ => .error (.unknown raw)

/-- Group 0x8: secondary dispatch on the low nibble (R63). -/
def decodeGroup8 (raw : Word16) : Except DecodeError Instr :=
  match (fieldNBits raw).toNat with
  | 0x0 => .ok (.ldVxVy (fieldX raw) (fieldY raw))
  | 0x1 => .ok (.orVxVy (fieldX raw) (fieldY raw))
  | 0x2 => .ok (.andVxVy (fieldX raw) (fieldY raw))
  | 0x3 => .ok (.xorVxVy (fieldX raw) (fieldY raw))
  | 0x4 => .ok (.addVxVy (fieldX raw) (fieldY raw))
  | 0x5 => .ok (.subVxVy (fieldX raw) (fieldY raw))
  | 0x6 => .ok (.shrVx (fieldX raw) (fieldY raw))
  | 0x7 => .ok (.subnVxVy (fieldX raw) (fieldY raw))
  | 0xE => .ok (.shlVx (fieldX raw) (fieldY raw))
  | _ => .error (.unknown raw)

/-- Group 0xE: secondary dispatch on the low byte (R63). -/
def decodeGroupE (raw : Word16) : Except DecodeError Instr :=
  match (fieldKk raw).toNat with
  | 0x9E => .ok (.skpVx (fieldX raw))
  | 0xA1 => .ok (.sknpVx (fieldX raw))
  | _ => .error (.unknown raw)

/-- Group 0xF: secondary dispatch on the low byte (R63). -/
def decodeGroupF (raw : Word16) : Except DecodeError Instr :=
  match (fieldKk raw).toNat with
  | 0x07 => .ok (.ldVxDt (fieldX raw))
  | 0x0A => .ok (.ldVxK (fieldX raw))
  | 0x15 => .ok (.ldDtVx (fieldX raw))
  | 0x18 => .ok (.ldStVx (fieldX raw))
  | 0x1E => .ok (.addIVx (fieldX raw))
  | 0x29 => .ok (.ldFVx (fieldX raw))
  | 0x33 => .ok (.ldBVx (fieldX raw))
  | 0x55 => .ok (.ldMemVx (fieldX raw))
  | 0x65 => .ok (.ldVxMem (fieldX raw))
  | _ => .error (.unknown raw)

/-- The decoder: "dispatch first on the top nibble", then the secondary dispatch of groups 0x0, 0x8, 0xE and 0xF (R63).
A pure function of the word and the parameter (R73). -/
def decodeWord (strict : Bool) (raw : Word16) : Except DecodeError Instr :=
  match (fieldGroup raw).toNat with
  | 0x0 => decodeGroup0 strict raw
  | 0x1 => .ok (.jp (fieldNnn raw))
  | 0x2 => .ok (.call (fieldNnn raw))
  | 0x3 => .ok (.seVxKk (fieldX raw) (fieldKk raw))
  | 0x4 => .ok (.sneVxKk (fieldX raw) (fieldKk raw))
  | 0x5 => ignoring strict raw (fieldNBits raw) (.seVxVy (fieldX raw) (fieldY raw) (fieldNBits raw))
  | 0x6 => .ok (.ldVxKk (fieldX raw) (fieldKk raw))
  | 0x7 => .ok (.addVxKk (fieldX raw) (fieldKk raw))
  | 0x8 => decodeGroup8 raw
  | 0x9 => ignoring strict raw (fieldNBits raw) (.sneVxVy (fieldX raw) (fieldY raw) (fieldNBits raw))
  | 0xA => .ok (.ldIAddr (fieldNnn raw))
  | 0xB => .ok (.jpV0Addr (fieldNnn raw))
  | 0xC => .ok (.rndVxKk (fieldX raw) (fieldKk raw))
  | 0xD => .ok (.drw (fieldX raw) (fieldY raw) (fieldN raw))
  | 0xE => decodeGroupE raw
  | _ => decodeGroupF raw

/-- Decoding from bytes: an instruction is the first two, big-endian (R60); the rest is handed back. -/
def decodeBytes (strict : Bool) (bytes : List Byte) : Except DecodeError (Instr × List Byte) :=
  match bytes with
  | hi :: lo :: rest =>
    match decodeWord strict (joinBytes hi lo) with
    | .ok i => .ok (i, rest)
    | .error e => .error e
  | _ => .error .truncated

/-! ## Encoder (30_encoding.md R62, R64) -/

/-- A register selector as four bits. -/
def regBits (r : Fin 16) : BitVec 4 := BitVec.ofFin r

/-- Format NNN: group and address. -/
def wordNnn (group : BitVec 4) (nnn : BitVec 12) : Word16 := group ++ nnn

/-- Format XKK, and with a fixed low byte formats OP and XS: group, nibble and byte. -/
def wordXkk (group x : BitVec 4) (kk : Byte) : Word16 := group ++ (x ++ kk : BitVec 12)

/-- Formats XY, XYS and XYN: four nibbles. -/
def wordXyn (group x y n : BitVec 4) : Word16 := group ++ (x ++ (y ++ n : BitVec 8) : BitVec 12)

/-- The word of an instruction. -/
def encode (i : Instr) : Word16 :=
  match i with
  | .cls d => wordXkk 0x0 d 0xE0
  | .ret d => wordXkk 0x0 d 0xEE
  | .jp nnn => wordNnn 0x1 nnn
  | .call nnn => wordNnn 0x2 nnn
  | .seVxKk x kk => wordXkk 0x3 (regBits x) kk
  | .sneVxKk x kk => wordXkk 0x4 (regBits x) kk
  | .seVxVy x y d => wordXyn 0x5 (regBits x) (regBits y) d
  | .ldVxKk x kk => wordXkk 0x6 (regBits x) kk
  | .addVxKk x kk => wordXkk 0x7 (regBits x) kk
  | .ldVxVy x y => wordXyn 0x8 (regBits x) (regBits y) 0x0
  | .orVxVy x y => wordXyn 0x8 (regBits x) (regBits y) 0x1
  | .andVxVy x y => wordXyn 0x8 (regBits x) (regBits y) 0x2
  | .xorVxVy x y => wordXyn 0x8 (regBits x) (regBits y) 0x3
  | .addVxVy x y => wordXyn 0x8 (regBits x) (regBits y) 0x4
  | .subVxVy x y => wordXyn 0x8 (regBits x) (regBits y) 0x5
  | .shrVx x y => wordXyn 0x8 (regBits x) (regBits y) 0x6
  | .subnVxVy x y => wordXyn 0x8 (regBits x) (regBits y) 0x7
  | .shlVx x y => wordXyn 0x8 (regBits x) (regBits y) 0xE
  | .sneVxVy x y d => wordXyn 0x9 (regBits x) (regBits y) d
  | .ldIAddr nnn => wordNnn 0xA nnn
  | .jpV0Addr nnn => wordNnn 0xB nnn
  | .rndVxKk x kk => wordXkk 0xC (regBits x) kk
  | .drw x y n => wordXyn 0xD (regBits x) (regBits y) (regBits n)
  | .skpVx x => wordXkk 0xE (regBits x) 0x9E
  | .sknpVx x => wordXkk 0xE (regBits x) 0xA1
  | .ldVxDt x => wordXkk 0xF (regBits x) 0x07
  | .ldVxK x => wordXkk 0xF (regBits x) 0x0A
  | .ldDtVx x => wordXkk 0xF (regBits x) 0x15
  | .ldStVx x => wordXkk 0xF (regBits x) 0x18
  | .addIVx x => wordXkk 0xF (regBits x) 0x1E
  | .ldFVx x => wordXkk 0xF (regBits x) 0x29
  | .ldBVx x => wordXkk 0xF (regBits x) 0x33
  | .ldMemVx x => wordXkk 0xF (regBits x) 0x55
  | .ldVxMem x => wordXkk 0xF (regBits x) 0x65

/-- The bytes of an instruction, the first at the lower address (20_memory.md R45). -/
def encodeBytes (i : Instr) : List Byte := [highByte (encode i), lowByte (encode i)]

/-! ## The opcode map as a table (30_encoding.md R64) -/

/-- One row of R64: "a word `raw` is this instruction exactly when `raw & mask = match`", with the mask under
STRICT_DECODE beside it. -/
structure OpcodeRow where
  mask       : Word16
  value      : Word16
  strictMask : Word16
  deriving DecidableEq, Repr

/-- The row of an instruction: the `mask`, `match` and `strict mask` columns of R64. -/
def Instr.row (i : Instr) : OpcodeRow :=
  match i with
  | .cls _ => ⟨0xF0FF, 0x00E0, 0xFFFF⟩
  | .ret _ => ⟨0xF0FF, 0x00EE, 0xFFFF⟩
  | .jp _ => ⟨0xF000, 0x1000, 0xF000⟩
  | .call _ => ⟨0xF000, 0x2000, 0xF000⟩
  | .seVxKk _ _ => ⟨0xF000, 0x3000, 0xF000⟩
  | .sneVxKk _ _ => ⟨0xF000, 0x4000, 0xF000⟩
  | .seVxVy _ _ _ => ⟨0xF000, 0x5000, 0xF00F⟩
  | .ldVxKk _ _ => ⟨0xF000, 0x6000, 0xF000⟩
  | .addVxKk _ _ => ⟨0xF000, 0x7000, 0xF000⟩
  | .ldVxVy _ _ => ⟨0xF00F, 0x8000, 0xF00F⟩
  | .orVxVy _ _ => ⟨0xF00F, 0x8001, 0xF00F⟩
  | .andVxVy _ _ => ⟨0xF00F, 0x8002, 0xF00F⟩
  | .xorVxVy _ _ => ⟨0xF00F, 0x8003, 0xF00F⟩
  | .addVxVy _ _ => ⟨0xF00F, 0x8004, 0xF00F⟩
  | .subVxVy _ _ => ⟨0xF00F, 0x8005, 0xF00F⟩
  | .shrVx _ _ => ⟨0xF00F, 0x8006, 0xF00F⟩
  | .subnVxVy _ _ => ⟨0xF00F, 0x8007, 0xF00F⟩
  | .shlVx _ _ => ⟨0xF00F, 0x800E, 0xF00F⟩
  | .sneVxVy _ _ _ => ⟨0xF000, 0x9000, 0xF00F⟩
  | .ldIAddr _ => ⟨0xF000, 0xA000, 0xF000⟩
  | .jpV0Addr _ => ⟨0xF000, 0xB000, 0xF000⟩
  | .rndVxKk _ _ => ⟨0xF000, 0xC000, 0xF000⟩
  | .drw _ _ _ => ⟨0xF000, 0xD000, 0xF000⟩
  | .skpVx _ => ⟨0xF0FF, 0xE09E, 0xF0FF⟩
  | .sknpVx _ => ⟨0xF0FF, 0xE0A1, 0xF0FF⟩
  | .ldVxDt _ => ⟨0xF0FF, 0xF007, 0xF0FF⟩
  | .ldVxK _ => ⟨0xF0FF, 0xF00A, 0xF0FF⟩
  | .ldDtVx _ => ⟨0xF0FF, 0xF015, 0xF0FF⟩
  | .ldStVx _ => ⟨0xF0FF, 0xF018, 0xF0FF⟩
  | .addIVx _ => ⟨0xF0FF, 0xF01E, 0xF0FF⟩
  | .ldFVx _ => ⟨0xF0FF, 0xF029, 0xF0FF⟩
  | .ldBVx _ => ⟨0xF0FF, 0xF033, 0xF0FF⟩
  | .ldMemVx _ => ⟨0xF0FF, 0xF055, 0xF0FF⟩
  | .ldVxMem _ => ⟨0xF0FF, 0xF065, 0xF0FF⟩

/-- Whether a word matches a row under the given setting of STRICT_DECODE (R64, R66). -/
def OpcodeRow.matchesWord (r : OpcodeRow) (strict : Bool) (raw : Word16) : Bool :=
  raw &&& (if strict then r.strictMask else r.mask) == r.value

/-! ## The host's view of the decoder -/

/-- The word whose bits are `w`; bits above `nbits` are zero. -/
def tableWord (nbits w : Nat) : Word16 := BitVec.ofNat 16 (w % 2 ^ nbits)

/-- The instruction the decoder reads, under the default parameters, from the bytes of the word `w` laid out as memory
holds them. -/
def decodeTableWord (nbits w : Nat) : Option Instr :=
  match decodeBytes Machine.defaultParams.strictDecode [highByte (tableWord nbits w), lowByte (tableWord nbits w)] with
  | .ok (i, _) => some i
  | .error _ => none

end Sys2Proof
end

