-- ==== Sys2Proof/Machine/State.lean ====
section
/-! DEFINITION. The state of the core (10_state.md R10), the ways a step can stop, and the state after reset. -/

namespace Sys2Proof.Machine

/-- Memory as its listed cells: addresses strictly rising, and no cell equal to what an unlisted address reads as
(20_memory.md R40). -/
structure Memory where
  cells : List Host.Cell
  deriving DecidableEq, Repr

/-- The display: 32 rows of 64 one-bit pixels, bit `x` of row `y` being pixel `(x, y)` (10_state.md R25). -/
abbrev Display := Vector (BitVec 64) 32

/-- The wait state machine (10_state.md R28). -/
inductive WaitState where
  | normal
  | awaitingKey (t : Reg)
  deriving DecidableEq, Repr

/-- The five classes of fatal error (60_exceptions.md R220 to R223, R226). -/
inductive ErrorKind where
  | unknownOpcode
  | boundsViolation
  | stackOverflow
  | stackUnderflow
  | keyIndexOutOfRange
  deriving DecidableEq, Repr

/-- The `info` field of an error record (60_exceptions.md R224): "the offending address for `BoundsViolation`, the value of
`V[x]` for `KeyIndexOutOfRange`, unused otherwise". -/
inductive ErrorInfo where
  | unused
  | address (a : Nat)
  | keyValue (value : Byte)
  deriving DecidableEq, Repr

/-- The error record (60_exceptions.md R224). -/
structure ErrorRecord where
  kind : ErrorKind
  raw  : Word16
  pc   : Word16
  info : ErrorInfo
  deriving DecidableEq, Repr

/-- `Running` or `Halted(err)` (10_state.md R29). -/
inductive Status where
  | running
  | halted (err : ErrorRecord)
  deriving DecidableEq, Repr

/-- The complete state of the core (10_state.md R10), and two fields of the model's own: `params` and `draws` (log 2,
log 4). SP is `State.sp` and the tone is `State.tone`, both computed (R20, R33; log 10). -/
structure State where
  mem    : Memory
  v      : Vector Byte 16
  i      : Word16
  pc     : Word16
  stack  : List Word16
  dt     : Byte
  st     : Byte
  pix    : Display
  keys   : Vector Bool 16
  wait   : WaitState
  status : Status
  params : Params
  draws  : Nat
  deriving DecidableEq, Repr

/-- No step of this machine faults: every error the spec names is a state, `Halted(err)` (60_exceptions.md R225, log 1), so
there is no constructor. Safe: nothing is stopped that the spec lets go on. -/
inductive Fault where
  deriving DecidableEq, Repr

/-- Why the model answers no state. -/
inductive Refusal where
  /-- Raised by `exec` for an instruction without a meaning; no arm does so. Safe. -/
  | notModelled (mnemonic : String)
  /-- Raised by the event Reset, never by a step, for an image longer than 3584 bytes: "a model refuses a longer image"
  (70_reset_and_hazards.md R251; log 16). Safe. -/
  | romTooLong (length : Nat)
  deriving DecidableEq, Repr

/-- The outcome of a step, an instruction or an event. -/
abbrev Result := Host.Outcome State Fault Refusal

/-- The canonical form from address `lo` on: rising addresses that exist, and no cell that reads as if unlisted. -/
def Memory.wfFrom (lo : Nat) : List Host.Cell → Bool
  | [] => true
  | (a, b) :: rest =>
    decide (lo ≤ a) && decide (a < Config.memSize) && b != background a && Memory.wfFrom (a + 1) rest

/-- The canonical form of memory. -/
def Memory.wf (m : Memory) : Bool := Memory.wfFrom 0 m.cells

/-- The state after Reset with the default FONT and an empty ROM (10_state.md R34, 70_reset_and_hazards.md R250). The
values of `I`, the timers, the key flags and the wait state are the spec's decision D12 (log 15); `params` and `draws`
are the model's (log 2, log 4). -/
def State.reset : State where
  mem    := ⟨[]⟩
  v      := Vector.replicate 16 0
  i      := 0
  pc     := 0x200
  stack  := []
  dt     := 0
  st     := 0
  pix    := Vector.replicate 32 0
  keys   := Vector.replicate 16 false
  wait   := .normal
  status := .running
  params := defaultParams
  draws  := 0

end Sys2Proof.Machine
end

