-- ==== Sys2Proof/Machine/Ops.lean ====
section
/-! DEFINITION. The named operations over memory, registers, stack, display, timers and status, which every meaning uses. -/

namespace Sys2Proof.Machine

/-! ## Memory (20_memory.md R42 to R44, R51) -/

/-- The byte at an address: the listed cell, or what an unlisted address reads as. -/
def Memory.lookup : List Host.Cell → Nat → Byte
  | [], a => background a
  | (b, w) :: rest, a => if a = b then w else Memory.lookup rest a

/-- `mem[a]` -/
def Memory.get (m : Memory) (a : Nat) : Byte := Memory.lookup m.cells a

/-- The cell for `a`, unless `v` is what an unlisted `a` reads as. -/
def Memory.cellFor (a : Nat) (v : Byte) : List Host.Cell :=
  if v = background a then [] else [(a, v)]

/-- Write one cell, keeping the canonical form. -/
def Memory.insert : List Host.Cell → Nat → Byte → List Host.Cell
  | [], a, v => Memory.cellFor a v
  | (b, w) :: rest, a, v =>
    if a < b then Memory.cellFor a v ++ (b, w) :: rest
    else if a = b then Memory.cellFor a v ++ rest
    else (b, w) :: Memory.insert rest a v

/-- `mem[a] <- v` -/
def Memory.set (m : Memory) (a : Nat) (v : Byte) : Memory := ⟨Memory.insert m.cells a v⟩

/-- The bound check of an access to `n` consecutive addresses from `a`: "The check is `I + last <= 0xFFF`", and an access
to no byte cannot fail (R51, 44_display.md R173 (a)). -/
def inBounds (a n : Nat) : Bool := n == 0 || decide (a + n ≤ Config.memSize)

/-- "The lowest offending address is `max(I, 0x1000)`" (R51). -/
def offendingAddress (a : Nat) : Nat := max a Config.memSize

/-- The `n` bytes from address `a` on. -/
def Memory.range (m : Memory) : Nat → Nat → List Byte
  | _, 0 => []
  | a, n + 1 => m.get a :: Memory.range m (a + 1) n

/-- Write consecutive bytes in ascending order. -/
def Memory.setRange (m : Memory) : Nat → List Byte → Memory
  | _, [] => m
  | a, b :: bs => Memory.setRange (m.set a b) (a + 1) bs

/-- Read `n` consecutive bytes, or the lowest offending address (R42, R51). `MemRead(a, 1)` is the case `n = 1`. -/
def loadBytes (m : Memory) (a n : Nat) : Except Nat (List Byte) :=
  if inBounds a n then .ok (m.range a n) else .error (offendingAddress a)

/-- Write consecutive bytes, or the lowest offending address and nothing written (R44, R51). `MemWrite(a, 1, b)` is the case
of one byte. -/
def storeBytes (m : Memory) (a : Nat) (bs : List Byte) : Except Nat Memory :=
  if inBounds a bs.length then .ok (m.setRange a bs) else .error (offendingAddress a)

/-- `MemRead(a, 2)`, instruction fetch: big-endian, at any parity of `a` (R43, R45, R46). -/
def fetchWord (m : Memory) (a : Nat) : Except Nat Word16 :=
  if inBounds a 2 then .ok (joinBytes (m.get a) (m.get (a + 1))) else .error (offendingAddress a)

/-- Lay a word in memory as fetch reads it (R45). -/
def Memory.setWord (m : Memory) (a : Nat) (w : Word16) : Memory := m.setRange a [highByte w, lowByte w]

/-! ## Registers (10_state.md R11, R12) -/

/-- `V[x]` -/
def State.getV (s : State) (x : Reg) : Byte := s.v[x]

/-- `V[x] <- b` -/
def State.setV (s : State) (x : Reg) (b : Byte) : State := { s with v := s.v.set x b }

/-- The register that also receives flags (R12). -/
abbrev vf : Reg := 15

/-- The flag write, then the result write, which wins when `x` is VF (40_step_cycle.md R86 (b), 42_register_alu.md R141). -/
def State.setFlagThenV (s : State) (flag : Byte) (x : Reg) (b : Byte) : State := (s.setV vf flag).setV x b

/-- The registers from number `k` on receive consecutive bytes, in ascending order (43_index_and_memory.md R160). -/
def setRegsFrom : Nat → List Byte → Vector Byte 16 → Vector Byte 16
  | _, [], v => v
  | k, b :: bs, v => setRegsFrom (k + 1) bs (v.setIfInBounds k b)

/-! ## Program counter (10_state.md R15) -/

/-- PC delta `+2`. The sum is a 16-bit one; a Step never makes it wrap (R18; log 9). -/
def State.advance (s : State) : State := { s with pc := s.pc + 2 }

/-- PC delta `+2 or +4`: a skip (41_control_flow.md R111). -/
def State.skipIf (s : State) (c : Bool) : State := { s with pc := s.pc + (if c then 4 else 2) }

/-! ## Stack (10_state.md R19 to R22) -/

/-- `SP`, the number of entries (R20). -/
def State.sp (s : State) : Nat := s.stack.length

/-- `push(v)`: the new entry is the last (R19, R21). -/
def push (stack : List Word16) (a : Word16) : Except ErrorKind (List Word16) :=
  if stack.length < Config.stackDepth then .ok (stack ++ [a]) else .error .stackOverflow

/-- `pop()`: the last entry and what is left (R22). -/
def pop (stack : List Word16) : Except ErrorKind (Word16 × List Word16) :=
  match stack.getLast? with
  | some t => .ok (t, stack.dropLast)
  | none => .error .stackUnderflow

/-! ## Fatal errors (60_exceptions.md R224, R225; 40_step_cycle.md R91) -/

/-- The numeric code of an error class (R220 to R223, R226). -/
def ErrorKind.code (k : ErrorKind) : Nat :=
  match k with
  | .unknownOpcode => 1
  | .boundsViolation => 2
  | .stackOverflow => 3
  | .stackUnderflow => 4
  | .keyIndexOutOfRange => 5

/-- Taking an error: `status <- Halted(err)` and no other effect. The core goes on in this state, in which a Step changes
nothing (R81). There is no handler and no return but Reset (R229). -/
def State.halt (s : State) (err : ErrorRecord) : State := { s with status := .halted err }

/-- `raise kind(info)` in the execute phase of the instruction `i`: the record holds its word and the `pc` of the Step. -/
def raise (i : Instr) (kind : ErrorKind) (info : ErrorInfo) (s : State) : Result :=
  .next (s.halt ⟨kind, encode i, s.pc, info⟩)

/-- `raise BoundsViolation(a)` at fetch: no word was fetched, so `raw` is a free value (R221; log 3). -/
def raiseFetch (a : Nat) (s : State) : Result :=
  .next (s.halt ⟨.boundsViolation, Config.unfetchedRaw s.draws, s.pc, .address a⟩)

/-- `raise UnknownOpcode(raw, pc)` at dispatch (40_step_cycle.md R84, 60_exceptions.md R220). -/
def raiseUnknown (raw : Word16) (s : State) : Result :=
  .next (s.halt ⟨.unknownOpcode, raw, s.pc, .unused⟩)

/-- The word placed where the next Step fetches, at `pc` and `pc + 1`, and the core running, since a halted core fetches
nothing (40_step_cycle.md R81). Where `pc` is above 0xFFE no word can be placed, and the state is only set running
(log 11). -/
def State.placeWord (s : State) (w : Word16) : State :=
  { s with
    mem := if inBounds s.pc.toNat 2 then s.mem.setWord s.pc.toNat w else s.mem
    status := .running }

/-! ## Timers (40_step_cycle.md R88) -/

/-- One decrement "down to floor 0". -/
def decrement (t : Byte) : Byte := BitVec.ofNat 8 (t.toNat - 1)

/-- The timer phase. -/
def State.tick (s : State) : State := { s with dt := decrement s.dt, st := decrement s.st }

/-- What follows the execute phase: the timer phase of a Step that did not raise; a Step that raised is abandoned
(R80, R91). -/
def State.endStep (s : State) : State :=
  match s.status with
  | .running => s.tick
  | .halted _ => s

/-! ## Display (44_display.md R171, R173 to R175) -/

/-- Read one pixel. -/
def pixel (d : Display) (px : Fin 64) (py : Fin 32) : Bool := d[py].getLsbD px

/-- XOR one pixel with 1. -/
def togglePixel (d : Display) (px : Fin 64) (py : Fin 32) : Display :=
  d.set py (d[py] ^^^ BitVec.twoPow 64 px)

/-- The clear operation. -/
def clearDisplay : Display := Vector.replicate 32 0

/-- Column `col` of a sprite byte is bit `7 - col` (R174, PRESUMED by the spec, its G3; log 7). -/
def spriteBit (b : Byte) (col : Nat) : Bool := b.getLsbD (7 - col)

/-- Coordinates wrap on both axes, for every pixel separately (R175). -/
def wrapX (n : Nat) : Fin 64 := Fin.ofNat 64 n

@[inherit_doc wrapX]
def wrapY (n : Nat) : Fin 32 := Fin.ofNat 32 n

/-- Toggle one target; the flag records a pixel that was on. -/
def plot (px : Fin 64) (py : Fin 32) (acc : Display × Bool) : Display × Bool :=
  (togglePixel acc.1 px py, acc.2 || pixel acc.1 px py)

/-- One sprite row: its columns `0` to `7`, those whose bit is set. -/
def drawRow (x0 y : Nat) (b : Byte) (acc : Display × Bool) : Display × Bool :=
  (List.range 8).foldl (fun acc col => if spriteBit b col then plot (wrapX (x0 + col)) (wrapY y) acc else acc) acc

/-- The sprite rows from `y` on. -/
def drawRows (x0 : Nat) : Nat → List Byte → Display × Bool → Display × Bool
  | _, [], acc => acc
  | y, b :: bs, acc => drawRows x0 (y + 1) bs (drawRow x0 y b acc)

/-- The drawing loop of R173: the display after it, and whether a pixel went from on to off. -/
def drawSprite (x0 y0 : Nat) (rows : List Byte) (d : Display) : Display × Bool :=
  drawRows x0 y0 rows (d, false)

end Sys2Proof.Machine
end

