-- ==== Sys2Proof/Machine/Operands.lean ====
section
/-! DEFINITION. Operand forms (30_encoding.md R70, 43_index_and_memory.md R162, 45_keypad_and_timers.md R192). -/

namespace Sys2Proof.Machine

/-- `nnn` as a value of `pc` or `I`: zero above its 12 bits. -/
def address (nnn : BitVec 12) : Word16 := nnn.setWidth 16

/-- The target of JP V0,addr: the plain sum (41_control_flow.md R110). -/
def indexedTarget (nnn : BitVec 12) (s : State) : Word16 := address nnn + (s.getV 0).setWidth 16

/-- The base address of a data access: the full value of `I`, unmasked (10_state.md R17, 20_memory.md R51). -/
def dataBase (s : State) : Nat := s.i.toNat

/-- The values of `V[0]` to `V[x]` (43_index_and_memory.md R158). -/
def regsTo (x : Reg) (s : State) : List Byte := s.v.toList.take (x + 1)

/-- The three decimal digits of a byte, hundreds first (43_index_and_memory.md R156). -/
def bcdDigits (a : Byte) : List Byte :=
  [BitVec.ofNat 8 (a.toNat / 100), BitVec.ofNat 8 (a.toNat / 10 % 10), BitVec.ofNat 8 (a.toNat % 10)]

/-- The address of the glyph of a value: five bytes each from address 0, no mask (43_index_and_memory.md R154). -/
def glyphAddress (a : Byte) : Word16 := BitVec.ofNat 16 (a.toNat * 5)

/-- The flag of key `k`. -/
def State.key (s : State) (k : Key) : Bool := s.keys[k]

/-- The key test of SKP and SKNP: whether the key named by the value `a` is held, or the error of a value above 0xF under
the policy in force (45_keypad_and_timers.md R190 to R192). -/
def keyHeld (a : Byte) (s : State) : Except ErrorKind Bool :=
  if h : a.toNat < 16 then .ok (s.key ⟨a.toNat, h⟩)
  else match s.params.keyIndexPolicy with
    | .fault => .error .keyIndexOutOfRange
    | .mask => .ok (s.key (Fin.ofNat 16 a.toNat))
    | .notHeld => .ok false

end Sys2Proof.Machine
end

