-- ==== Sys2Proof/Machine/Flags.lean ====
section
/-! DEFINITION. The values written to VF as a flag (10_state.md R13). -/

namespace Sys2Proof.Machine

/-- A flag as the number 0 or 1. -/
def flag (c : Bool) : Byte := if c then 1 else 0

/-- ADD Vx,Vy: 1 if the sum exceeds 255 (42_register_alu.md R128). -/
def carryFlag (a b : Byte) : Byte := flag (decide (a.toNat + b.toNat > 255))

/-- SUB: 1 if the first operand is strictly greater; SUBN swaps them (R129, R131, R140). -/
def greaterFlag (a b : Byte) : Byte := flag (decide (a.toNat > b.toNat))

/-- SHR: the bit shifted out, old bit 0 (R130). -/
def lowBitFlag (a : Byte) : Byte := flag (a.getLsbD 0)

/-- SHL: the bit shifted out, old bit 7 (R132). -/
def highBitFlag (a : Byte) : Byte := flag (a.getLsbD 7)

end Sys2Proof.Machine
end

