-- ==== Sys2Proof/Machine/Alu.lean ====
section
/-! DEFINITION. Register load, arithmetic, logic and random instructions (42_register_alu.md). 8-bit `+` and `-` are the
reductions modulo 256 of R140. -/

namespace Sys2Proof.Machine

/-- LD Vx,kk (R120). -/
def execLdVxKk (x : Reg) (kk : Byte) (s : State) : Result := .next (s.setV x kk).advance

/-- ADD Vx,kk (R121): no flag. -/
def execAddVxKk (x : Reg) (kk : Byte) (s : State) : Result := .next (s.setV x (s.getV x + kk)).advance

/-- LD Vx,Vy (R124). -/
def execLdVxVy (x y : Reg) (s : State) : Result := .next (s.setV x (s.getV y)).advance

/-- OR Vx,Vy (R125). -/
def execOrVxVy (x y : Reg) (s : State) : Result := .next (s.setV x (s.getV x ||| s.getV y)).advance

/-- AND Vx,Vy (R126). -/
def execAndVxVy (x y : Reg) (s : State) : Result := .next (s.setV x (s.getV x &&& s.getV y)).advance

/-- XOR Vx,Vy (R127). -/
def execXorVxVy (x y : Reg) (s : State) : Result := .next (s.setV x (s.getV x ^^^ s.getV y)).advance

/-- ADD Vx,Vy (R128). -/
def execAddVxVy (x y : Reg) (s : State) : Result :=
  .next (s.setFlagThenV (carryFlag (s.getV x) (s.getV y)) x (s.getV x + s.getV y)).advance

/-- SUB Vx,Vy (R129). -/
def execSubVxVy (x y : Reg) (s : State) : Result :=
  .next (s.setFlagThenV (greaterFlag (s.getV x) (s.getV y)) x (s.getV x - s.getV y)).advance

/-- SHR Vx (R130): logical, `V[y]` not read. -/
def execShrVx (x : Reg) (s : State) : Result :=
  .next (s.setFlagThenV (lowBitFlag (s.getV x)) x (s.getV x >>> 1)).advance

/-- SUBN Vx,Vy (R131). -/
def execSubnVxVy (x y : Reg) (s : State) : Result :=
  .next (s.setFlagThenV (greaterFlag (s.getV y) (s.getV x)) x (s.getV y - s.getV x)).advance

/-- SHL Vx (R132): `V[y]` not read. -/
def execShlVx (x : Reg) (s : State) : Result :=
  .next (s.setFlagThenV (highBitFlag (s.getV x)) x (s.getV x <<< 1)).advance

/-- RND Vx,kk (R138): one free byte, masked; the counter moves on, so the next draw is another one (log 2). -/
def execRndVxKk (x : Reg) (kk : Byte) (s : State) : Result :=
  .next ({ s with draws := s.draws + 1 }.setV x (Config.randomByte s.draws &&& kk)).advance

end Sys2Proof.Machine
end

