-- ==== Sys2Proof/Machine/Control.lean ====
section
/-! DEFINITION. Control-flow instructions (41_control_flow.md). -/

namespace Sys2Proof.Machine

/-- RET (R102): pop, and continue two past the popped address. -/
def execRet (d : BitVec 4) (s : State) : Result :=
  match pop s.stack with
  | .ok (t, rest) => .next { s with stack := rest, pc := t + 2 }
  | .error kind => raise (.ret d) kind .unused s

/-- JP addr (R103). -/
def execJp (nnn : BitVec 12) (s : State) : Result := .next { s with pc := address nnn }

/-- CALL addr (R104): the address of the CALL itself is pushed. -/
def execCall (nnn : BitVec 12) (s : State) : Result :=
  match push s.stack s.pc with
  | .ok stack => .next { s with stack := stack, pc := address nnn }
  | .error kind => raise (.call nnn) kind .unused s

/-- SE Vx,kk (R105). -/
def execSeVxKk (x : Reg) (kk : Byte) (s : State) : Result := .next (s.skipIf (s.getV x == kk))

/-- SNE Vx,kk (R106). -/
def execSneVxKk (x : Reg) (kk : Byte) (s : State) : Result := .next (s.skipIf (s.getV x != kk))

/-- SE Vx,Vy (R107). -/
def execSeVxVy (x y : Reg) (s : State) : Result := .next (s.skipIf (s.getV x == s.getV y))

/-- SNE Vx,Vy (R108). -/
def execSneVxVy (x y : Reg) (s : State) : Result := .next (s.skipIf (s.getV x != s.getV y))

/-- JP V0,addr (R110). -/
def execJpV0Addr (nnn : BitVec 12) (s : State) : Result := .next { s with pc := indexedTarget nnn s }

end Sys2Proof.Machine
end

