-- ==== Sys2Proof/Machine/Index.lean ====
section
/-! DEFINITION. Index register and memory instructions (43_index_and_memory.md). None of the memory accesses changes `I`
(R162). -/

namespace Sys2Proof.Machine

/-- LD I,addr (R150). -/
def execLdIAddr (nnn : BitVec 12) (s : State) : Result := .next { s with i := address nnn }.advance

/-- ADD I,Vx (R152): modulo 65536, no flag. -/
def execAddIVx (x : Reg) (s : State) : Result := .next { s with i := s.i + (s.getV x).setWidth 16 }.advance

/-- LD F,Vx (R154). -/
def execLdFVx (x : Reg) (s : State) : Result := .next { s with i := glyphAddress (s.getV x) }.advance

/-- LD B,Vx (R156). -/
def execLdBVx (x : Reg) (s : State) : Result :=
  match storeBytes s.mem (dataBase s) (bcdDigits (s.getV x)) with
  | .ok mem => .next { s with mem := mem }.advance
  | .error a => raise (.ldBVx x) .boundsViolation (.address a) s

/-- LD [I],Vx (R158). -/
def execLdMemVx (x : Reg) (s : State) : Result :=
  match storeBytes s.mem (dataBase s) (regsTo x s) with
  | .ok mem => .next { s with mem := mem }.advance
  | .error a => raise (.ldMemVx x) .boundsViolation (.address a) s

/-- LD Vx,[I] (R160). -/
def execLdVxMem (x : Reg) (s : State) : Result :=
  match loadBytes s.mem (dataBase s) (x + 1) with
  | .ok bytes => .next { s with v := setRegsFrom 0 bytes s.v }.advance
  | .error a => raise (.ldVxMem x) .boundsViolation (.address a) s

end Sys2Proof.Machine
end

