-- ==== Sys2Proof/Machine/KeyTimer.lean ====
section
/-! DEFINITION. Keypad and timer instructions (45_keypad_and_timers.md). -/

namespace Sys2Proof.Machine

/-- SKP Vx (R190). -/
def execSkpVx (x : Reg) (s : State) : Result :=
  match keyHeld (s.getV x) s with
  | .ok held => .next (s.skipIf held)
  | .error kind => raise (.skpVx x) kind (.keyValue (s.getV x)) s

/-- SKNP Vx (R191). -/
def execSknpVx (x : Reg) (s : State) : Result :=
  match keyHeld (s.getV x) s with
  | .ok held => .next (s.skipIf !held)
  | .error kind => raise (.sknpVx x) kind (.keyValue (s.getV x)) s

/-- LD Vx,DT (R194): `DT` before this Step's timer phase. -/
def execLdVxDt (x : Reg) (s : State) : Result := .next (s.setV x s.dt).advance

/-- LD Vx,K (R196): enter the wait, or continue it; `pc` stays. -/
def execLdVxK (x : Reg) (s : State) : Result :=
  match s.wait with
  | .normal => .next { s with wait := .awaitingKey x }
  | .awaitingKey _ => .next s

/-- LD DT,Vx (R197). -/
def execLdDtVx (x : Reg) (s : State) : Result := .next { s with dt := s.getV x }.advance

/-- LD ST,Vx (R198). -/
def execLdStVx (x : Reg) (s : State) : Result := .next { s with st := s.getV x }.advance

end Sys2Proof.Machine
end

