-- ==== Sys2Proof/Machine/Screen.lean ====
section
/-! DEFINITION. Display instructions (44_display.md). -/

namespace Sys2Proof.Machine

/-- CLS (R170). -/
def execCls (s : State) : Result := .next { s with pix := clearDisplay }.advance

/-- DRW Vx,Vy,n (R173): the coordinates are the values before the instruction; VF receives the collision flag. -/
def execDrw (x y : Reg) (n : Fin 16) (s : State) : Result :=
  match loadBytes s.mem (dataBase s) n with
  | .ok rows =>
    let drawn := drawSprite (s.getV x).toNat (s.getV y).toNat rows s.pix
    .next ({ s with pix := drawn.1 }.setV vf (flag drawn.2)).advance
  | .error a => raise (.drw x y n) .boundsViolation (.address a) s

end Sys2Proof.Machine
end

