-- ==== Sys2Proof/Machine/Cycle.lean ====
section
/-! DEFINITION. The phases of a Step around the execute phase (40_step_cycle.md R80). -/

namespace Sys2Proof.Machine

/-- The timer phase added to the outcome of the execute phase (R88). -/
def finish (o : Result) : Result :=
  match o with
  | .next s => .next s.endStep
  | .fault f => .fault f
  | .refused r => .refused r

/-- Decode a fetched word and execute it (R83 to R86), then the timer phase. -/
def dispatch (raw : Word16) (s : State) : Result :=
  match decodeWord s.params.strictDecode raw with
  | .ok i => finish (exec i s)
  | .error _ => raiseUnknown raw s

/-- The Step: nothing in `Halted` (R81); else fetch at `pc` (R82) and dispatch. -/
def cycle (s : State) : Result :=
  match s.status with
  | .halted _ => .next s
  | .running =>
    match fetchWord s.mem s.pc.toNat with
    | .error a => raiseFetch a s
    | .ok raw => dispatch raw s

end Sys2Proof.Machine
end

