-- ==== Sys2Proof/Machine/Step.lean ====
section
/-! DEFINITION. The event Step (40_step_cycle.md R80), and the host's probe of it. -/

namespace Sys2Proof.Machine

/-- The event Step. -/
def step (s : State) : Host.Outcome State Fault Refusal := cycle s

/-- `s` with a word of the opcode table placed where the next Step fetches it. -/
def State.withFetchWord (s : State) (nbits w : Nat) : State := s.placeWord (tableWord nbits w)

end Sys2Proof.Machine
end

