-- ==== Sys2Proof/Machine/Events.lean ====
section
/-! DEFINITION. The host's events (00_scope.md R6): Step, KeyDown, KeyUp, Reset. They are atomic and totally ordered (R7),
so a run is a list of them (log 11). -/

namespace Sys2Proof.Machine

/-- An event of the host. FONT is an argument of Reset beside the image (10_state.md R31 (c); log 5). -/
inductive Event where
  | step
  | keyDown (k : Key)
  | keyUp (k : Key)
  | reset (font : Font) (rom : List Byte)
  deriving DecidableEq, Repr

/-- Set one held flag. -/
def State.setKey (s : State) (k : Key) (held : Bool) : State := { s with keys := s.keys.set k held }

/-- A KeyDown resolves a pending wait: the code goes to the awaited register, `pc` advances, the wait ends
(45_keypad_and_timers.md R200, R203). -/
def State.resolveWait (s : State) (k : Key) : State :=
  match s.wait with
  | .normal => s
  | .awaitingKey t => ({ s with wait := .normal }.setV t (BitVec.ofNat 8 k)).advance

/-- The event KeyDown (R200); nothing in `Halted`. -/
def keyDown (k : Key) (s : State) : State :=
  match s.status with
  | .halted _ => s
  | .running => (s.setKey k true).resolveWait k

/-- The event KeyUp (R201): it never resolves a wait; nothing in `Halted`. -/
def keyUp (k : Key) (s : State) : State :=
  match s.status with
  | .halted _ => s
  | .running => s.setKey k false

/-- Memory after Reset: zero, then FONT at 0x000, then the image at 0x200 (70_reset_and_hazards.md R250). -/
def resetMemory (font : Font) (rom : List Byte) : Memory :=
  ((⟨[]⟩ : Memory).setRange 0 ((List.range 80).map (fontByte font))).setRange Config.progBase rom

/-- The state after `Reset(rom)` from `s` (10_state.md R34, 70_reset_and_hazards.md R250). Of `s` only the model's own
fields remain: the parameters, and the counter of free values, which moves on so that no draw comes twice (log 2). -/
def State.resetWith (s : State) (font : Font) (rom : List Byte) : State :=
  { State.reset with mem := resetMemory font rom, params := s.params, draws := s.draws + 1 }

/-- One event. An image longer than 3584 bytes is refused (70_reset_and_hazards.md R251; log 16). -/
def event (e : Event) (s : State) : Result :=
  match e with
  | .step => step s
  | .keyDown k => .next (keyDown k s)
  | .keyUp k => .next (keyUp k s)
  | .reset font rom =>
    if rom.length ≤ Config.maxRom then .next (s.resetWith font rom) else .refused (.romTooLong rom.length)

/-- A run: events in their total order (R7). -/
def runEvents : List Event → State → Result
  | [], s => .next s
  | e :: es, s =>
    match event e s with
    | .next t => runEvents es t
    | .fault f => .fault f
    | .refused r => .refused r

end Sys2Proof.Machine
end

