-- ==== Sys2Proof/Machine/Outputs.lean ====
section
/-! DEFINITION. What the host may read between events (00_scope.md R8): all functions of the state, none feeding back. -/

namespace Sys2Proof.Machine

/-- The tone output: true exactly when `ST > 0` (10_state.md R33, 40_step_cycle.md R89). -/
def State.tone (s : State) : Bool := s.st != 0

/-- One pixel of the render output (10_state.md R25, R26). -/
def State.pixelAt (s : State) (px : Fin 64) (py : Fin 32) : Bool := pixel s.pix px py

/-- The wait output: whether the core awaits a key (45_keypad_and_timers.md R204). -/
def State.awaiting (s : State) : Bool :=
  match s.wait with
  | .normal => false
  | .awaitingKey _ => true

/-- The error output: the record of a halted core (60_exceptions.md R224). -/
def State.error (s : State) : Option ErrorRecord :=
  match s.status with
  | .running => none
  | .halted err => some err

/-- The decoded word at an address; nothing outside memory, which is "suppressed by the reader, not reported as a core
fault" (60_exceptions.md R239). -/
def State.decodedAt (s : State) (a : Nat) : Option (Except DecodeError Instr) :=
  match fetchWord s.mem a with
  | .ok raw => some (decodeWord s.params.strictDecode raw)
  | .error _ => none

/-- The trace snapshot: "PC, I, all V registers, SP, stack contents, and the decoded instruction" (R8). -/
structure TraceSnapshot where
  pc      : Word16
  i       : Word16
  v       : Vector Byte 16
  sp      : Nat
  stack   : List Word16
  current : Option (Except DecodeError Instr)

/-- The trace output. -/
def State.trace (s : State) : TraceSnapshot where
  pc      := s.pc
  i       := s.i
  v       := s.v
  sp      := s.sp
  stack   := s.stack
  current := s.decodedAt s.pc.toNat

end Sys2Proof.Machine
end

