-- ==== Sys2Proof/Safety.lean ====
section
/-! DEFINITION. The terms the claims use: frames, the shapes of results, the invariant of the machine, and the tables of the
spec that speak about all instructions. -/

namespace Sys2Proof.Machine

/-! ## Frames -/

/-- The parts of the state, the general registers apart. -/
inductive Part where
  | mem | i | pc | stack | dt | st | pix | keys | wait | status | params | draws
  deriving DecidableEq, Repr

/-- From `s` to `t` only the parts `may` and the registers `regs` may have changed. -/
structure Frame (may : List Part) (regs : List Reg) (s t : State) : Prop where
  mem    : Part.mem ∉ may → ∀ a, t.mem.get a = s.mem.get a
  v      : ∀ r, r ∉ regs → t.getV r = s.getV r
  i      : Part.i ∉ may → t.i = s.i
  pc     : Part.pc ∉ may → t.pc = s.pc
  stack  : Part.stack ∉ may → t.stack = s.stack
  dt     : Part.dt ∉ may → t.dt = s.dt
  st     : Part.st ∉ may → t.st = s.st
  pix    : Part.pix ∉ may → t.pix = s.pix
  keys   : Part.keys ∉ may → t.keys = s.keys
  wait   : Part.wait ∉ may → t.wait = s.wait
  status : Part.status ∉ may → t.status = s.status
  params : Part.params ∉ may → t.params = s.params
  draws  : Part.draws ∉ may → t.draws = s.draws

/-! ## Shapes of results -/

/-- `i` completes: `V[x]` becomes `val`, `pc` advances by 2, nothing else changes. -/
def LoadsV (i : Instr) (x : Reg) (val : Byte) (s : State) : Prop :=
  ∃ t, exec i s = .next t ∧ t.getV x = val ∧ t.pc = s.pc + 2 ∧ Frame [.pc] [x] s t

/-- `i` completes: `V[x]` becomes `val`, VF becomes `f` unless it is `V[x]`, `pc` advances by 2, nothing else changes. What
happens with VF as an operand follows R86 and R141, the spec's decision D5 (log 8). -/
def LoadsVAndFlag (i : Instr) (x : Reg) (val f : Byte) (s : State) : Prop :=
  ∃ t, exec i s = .next t ∧ t.getV x = val ∧ (x ≠ vf → t.getV vf = f) ∧ t.pc = s.pc + 2 ∧ Frame [.pc] [x, vf] s t

/-- `i` completes: `pc` advances by 4 if `c` holds and by 2 if not, nothing else changes. -/
def SkipsWhen (i : Instr) (c : Prop) (s : State) : Prop :=
  ∃ t, exec i s = .next t ∧ (c → t.pc = s.pc + 4) ∧ (¬c → t.pc = s.pc + 2) ∧ Frame [.pc] [] s t

/-- `i` raises: the core halts with the record, and every other part is as before (60_exceptions.md R224, R225,
the spec's decision D10; log 1). -/
def Raises (i : Instr) (kind : ErrorKind) (info : ErrorInfo) (s : State) : Prop :=
  exec i s = .next { s with status := .halted ⟨kind, encode i, s.pc, info⟩ }

/-- The `info` of a record is what its kind asks for (60_exceptions.md R224): an address outside memory, a register value
above 0xF, or nothing. -/
def ErrorRecord.InfoFits (err : ErrorRecord) : Prop :=
  match err.kind with
  | .boundsViolation => ∃ a, 0xFFF < a ∧ err.info = .address a
  | .keyIndexOutOfRange => ∃ b : Byte, 0xF < b.toNat ∧ err.info = .keyValue b
  | .unknownOpcode => err.info = .unused
  | .stackOverflow => err.info = .unused
  | .stackUnderflow => err.info = .unused

/-- The core runs, and the word at `pc` decodes to `i`. -/
def Fetches (s : State) (raw : Word16) (i : Instr) : Prop :=
  s.status = .running ∧ fetchWord s.mem s.pc.toNat = .ok raw ∧ decodeWord s.params.strictDecode raw = .ok i

/-! ## The invariant -/

/-- What holds at every event boundary (10_state.md R36, the spec's own derivation), and the canonical form of memory. -/
structure State.Inv (s : State) : Prop where
  memory   : s.mem.wf = true
  depth    : s.sp ≤ 16
  entries  : ∀ a ∈ s.stack, a.toNat ≤ 0xFFE
  pcRange  : s.pc.toNat ≤ 0x10FE
  awaiting : ∀ t, s.wait = .awaitingKey t →
    s.status = .running ∧ fetchWord s.mem s.pc.toNat = .ok (encode (.ldVxK t))

/-! ## The display (44_display.md R173, R178) -/

/-- `(px, py)` is one of the pixels that DRW Vx,Vy,n targets in `s`: a set sprite bit, after wrapping. -/
def Targets (x y : Reg) (n : Fin 16) (s : State) (px : Fin 64) (py : Fin 32) : Prop :=
  ∃ row col : Nat, row < n ∧ col < 8 ∧ (s.mem.get (s.i.toNat + row)).getLsbD (7 - col) = true ∧
    (px : Nat) = ((s.getV x).toNat + col) % 64 ∧ (py : Nat) = ((s.getV y).toNat + row) % 32

/-! ## Tables over all instructions -/

/-- The error an instruction raises in its execute phase, if any (60_exceptions.md R227). -/
def expectedError (i : Instr) (s : State) : Option ErrorKind :=
  match i with
  | .ret _ => if s.sp = 0 then some .stackUnderflow else none
  | .call _ => if s.sp = 16 then some .stackOverflow else none
  | .drw _ _ n => if 0 < (n : Nat) ∧ s.i.toNat + n - 1 > 0xFFF then some .boundsViolation else none
  | .ldBVx _ => if s.i.toNat + 2 > 0xFFF then some .boundsViolation else none
  | .ldMemVx x => if s.i.toNat + x > 0xFFF then some .boundsViolation else none
  | .ldVxMem x => if s.i.toNat + x > 0xFFF then some .boundsViolation else none
  | .skpVx x =>
    if (s.getV x).toNat > 0xF ∧ s.params.keyIndexPolicy = .fault then some .keyIndexOutOfRange else none
  | .sknpVx x =>
    if (s.getV x).toNat > 0xF ∧ s.params.keyIndexPolicy = .fault then some .keyIndexOutOfRange else none
  | .cls _ => none
  | .jp _ => none
  | .seVxKk _ _ => none
  | .sneVxKk _ _ => none
  | .seVxVy _ _ _ => none
  | .ldVxKk _ _ => none
  | .addVxKk _ _ => none
  | .ldVxVy _ _ => none
  | .orVxVy _ _ => none
  | .andVxVy _ _ => none
  | .xorVxVy _ _ => none
  | .addVxVy _ _ => none
  | .subVxVy _ _ => none
  | .shrVx _ _ => none
  | .subnVxVy _ _ => none
  | .shlVx _ _ => none
  | .sneVxVy _ _ _ => none
  | .ldIAddr _ => none
  | .jpV0Addr _ => none
  | .rndVxKk _ _ => none
  | .ldVxDt _ => none
  | .ldVxK _ => none
  | .ldDtVx _ => none
  | .ldStVx _ => none
  | .addIVx _ => none
  | .ldFVx _ => none

/-- The instruction writes a flag to VF as a side effect (10_state.md R13). -/
def writesFlag (i : Instr) : Bool :=
  match i with
  | .addVxVy _ _ => true
  | .subVxVy _ _ => true
  | .shrVx _ _ => true
  | .subnVxVy _ _ => true
  | .shlVx _ _ => true
  | .drw _ _ _ => true
  | .cls _ => false
  | .ret _ => false
  | .jp _ => false
  | .call _ => false
  | .seVxKk _ _ => false
  | .sneVxKk _ _ => false
  | .seVxVy _ _ _ => false
  | .ldVxKk _ _ => false
  | .addVxKk _ _ => false
  | .ldVxVy _ _ => false
  | .orVxVy _ _ => false
  | .andVxVy _ _ => false
  | .xorVxVy _ _ => false
  | .sneVxVy _ _ _ => false
  | .ldIAddr _ => false
  | .jpV0Addr _ => false
  | .rndVxKk _ _ => false
  | .skpVx _ => false
  | .sknpVx _ => false
  | .ldVxDt _ => false
  | .ldVxK _ => false
  | .ldDtVx _ => false
  | .ldStVx _ => false
  | .addIVx _ => false
  | .ldFVx _ => false
  | .ldBVx _ => false
  | .ldMemVx _ => false
  | .ldVxMem _ => false

/-- The instruction names `V[r]` as a destination in its execute phase: `x`, or the range up to `x` of LD Vx,[I]. LD Vx,K
writes none: the KeyDown that resolves the wait does (45_keypad_and_timers.md R196). -/
def hasDestination (i : Instr) (r : Reg) : Bool :=
  match i with
  | .ldVxKk x _ => r == x
  | .addVxKk x _ => r == x
  | .ldVxVy x _ => r == x
  | .orVxVy x _ => r == x
  | .andVxVy x _ => r == x
  | .xorVxVy x _ => r == x
  | .addVxVy x _ => r == x
  | .subVxVy x _ => r == x
  | .shrVx x _ => r == x
  | .subnVxVy x _ => r == x
  | .shlVx x _ => r == x
  | .rndVxKk x _ => r == x
  | .ldVxDt x => r == x
  | .ldVxMem x => decide (r ≤ x)
  | .cls _ => false
  | .ret _ => false
  | .jp _ => false
  | .call _ => false
  | .seVxKk _ _ => false
  | .sneVxKk _ _ => false
  | .seVxVy _ _ _ => false
  | .sneVxVy _ _ _ => false
  | .ldIAddr _ => false
  | .jpV0Addr _ => false
  | .drw _ _ _ => false
  | .skpVx _ => false
  | .sknpVx _ => false
  | .ldVxK _ => false
  | .ldDtVx _ => false
  | .ldStVx _ => false
  | .addIVx _ => false
  | .ldFVx _ => false
  | .ldBVx _ => false
  | .ldMemVx _ => false

end Sys2Proof.Machine
end

