-- ==== Sys2Proof/Certificates/Slice0/Obligations.lean ====
section
/-! DEFINITION. The statements for the provers. Each docstring names the sentence of the spec it formalises. -/

open Sys2Proof Sys2Proof.Machine

/-! ## Encoding (30_encoding.md) -/

/-- Words written out from the patterns of 30_encoding.md section 3 decode to their instructions, one or two a family
(95_test_vectors.md section 2.1). The opcode numbers are PRESUMED by the spec (its G1; log 6). -/
def Obligations.TableWordsDecode : Prop :=
  decodeTableWord 16 0x00E0 = some (.cls 0) ∧ decodeTableWord 16 0x1234 = some (.jp 0x234) ∧
  decodeTableWord 16 0x3A42 = some (.seVxKk 0xA 0x42) ∧ decodeTableWord 16 0x9AB0 = some (.sneVxVy 0xA 0xB 0) ∧
  decodeTableWord 16 0x8127 = some (.subnVxVy 1 2) ∧ decodeTableWord 16 0xC10F = some (.rndVxKk 1 0x0F) ∧
  decodeTableWord 16 0xD125 = some (.drw 1 2 5) ∧ decodeTableWord 16 0xE1A1 = some (.sknpVx 1) ∧
  decodeTableWord 16 0xF165 = some (.ldVxMem 1) ∧ decodeTableWord 16 0x0000 = none

/-- Decoding the word of a well-formed instruction gives it back, every operand at every value, under either setting of
STRICT_DECODE. The opcode numbers are PRESUMED by the spec (log 6); the ignored bits are kept in the instruction (log
13). -/
def Obligations.DecodeEncodeRoundTrip : Prop :=
  ∀ (strict : Bool) (i : Instr), i.wellFormed strict = true → decodeWord strict (encode i) = .ok i

/-- A word that decodes is the word of its instruction, and that instruction is well formed. The opcode numbers are
PRESUMED by the spec (log 6); the ignored bits are kept in the instruction (log 13). -/
def Obligations.EncodeDecodeRoundTrip : Prop :=
  ∀ (strict : Bool) (raw : Word16) (i : Instr), decodeWord strict raw = .ok i →
    encode i = raw ∧ i.wellFormed strict = true

/-- R64: "a word `raw` is this instruction exactly when `raw & mask = match`", with either mask column; and the rows
are pairwise disjoint. The opcode numbers are PRESUMED by the spec (its G1; log 6). -/
def Obligations.DecoderFollowsOpcodeMap : Prop :=
  ∀ (strict : Bool) (raw : Word16),
    (∀ i, decodeWord strict raw = .ok i → i.row.matchesWord strict raw = true) ∧
    (∀ i : Instr, i.row.matchesWord strict raw = true → ∃ j, decodeWord strict raw = .ok j ∧ j.row = i.row) ∧
    (∀ i j : Instr, i.row.matchesWord strict raw = true → j.row.matchesWord strict raw = true → i.row = j.row)

/-- The table of unknown words of R67, both settings of STRICT_DECODE (without the counts the spec derives there). The
opcode numbers are PRESUMED by the spec (its G1; log 6). -/
def Obligations.UnknownWordsAreThoseListed : Prop :=
  ∀ (strict : Bool) (raw : Word16),
    decodeWord strict raw = .error (.unknown raw) ↔
      (fieldGroup raw = 0x0 ∧ fieldKk raw ≠ 0xE0 ∧ fieldKk raw ≠ 0xEE) ∨
      (fieldGroup raw = 0x8 ∧ (fieldN raw : Nat) ∈ [0x8, 0x9, 0xA, 0xB, 0xC, 0xD, 0xF]) ∨
      (fieldGroup raw = 0xE ∧ fieldKk raw ≠ 0x9E ∧ fieldKk raw ≠ 0xA1) ∨
      (fieldGroup raw = 0xF ∧ fieldKk raw ∉ ([0x07, 0x0A, 0x15, 0x18, 0x1E, 0x29, 0x33, 0x55, 0x65] : List Byte)) ∨
      (strict = true ∧ (fieldGroup raw = 0x5 ∨ fieldGroup raw = 0x9) ∧ fieldN raw ≠ 0) ∨
      (strict = true ∧ fieldGroup raw = 0x0 ∧ fieldX raw ≠ 0 ∧ (fieldKk raw = 0xE0 ∨ fieldKk raw = 0xEE))

/-! ## The Step (40_step_cycle.md) -/

/-- R43: a fetch reads two bytes big-endian, at any parity, and an address outside memory raises naming the first
offending one. That an address above 0xFFF raises and is not masked is decision D6 (R42, R51; log 18, DEDUCED). -/
def Obligations.FetchIsBigEndian : Prop :=
  ∀ (m : Memory) (a : Nat),
    (a + 1 ≤ 0xFFF → ∃ raw, fetchWord m a = .ok raw ∧ raw.toNat = (m.get a).toNat * 256 + (m.get (a + 1)).toNat) ∧
    (a = 0xFFF → fetchWord m a = .error (a + 1)) ∧
    (a > 0xFFF → fetchWord m a = .error a)

/-- A Step runs the instruction that the word at `pc` decodes to, and then the timer phase unless it raised (R80). That
a Step which raised runs no timer phase is decision D10 (R91; log 1), and that a Step spent awaiting a key runs it is
decision D11 (R87; log 17, DEDUCED and unsafe). -/
def Obligations.StepRunsTheDecodedInstruction : Prop :=
  ∀ (s : State) (raw : Word16) (i : Instr) (u : State), Fetches s raw i → exec i s = .next u →
    (u.status = .running → step s = .next { u with
      dt := if u.dt = 0 then 0 else u.dt - 1
      st := if u.st = 0 then 0 else u.st - 1 }) ∧
    (∀ err, u.status = .halted err → step s = .next u)

/-- A Step of a halted core changes nothing (R81, the spec's decision D19; log 19). -/
def Obligations.HaltedStepChangesNothing : Prop :=
  ∀ (s : State) (err : ErrorRecord), s.status = .halted err → step s = .next s

/-- R82: a fetch with `pc > 0xFFE` raises BoundsViolation; the `raw` field of its record is unspecified (R221), so it
is only said to be some word. That the address is not masked is decision D6 (log 18), and what a raise leaves is
decision D10 (log 1); the raw field is a free value (log 3). -/
def Obligations.FetchOutsideMemoryHalts : Prop :=
  ∀ s : State, s.status = .running → s.pc.toNat > 0xFFE → ∃ raw : Word16, step s = .next { s with
    status := .halted ⟨.boundsViolation, raw, s.pc, .address (if s.pc.toNat > 0xFFF then s.pc.toNat else 0x1000)⟩ }

/-- R220: an unknown word raises UnknownOpcode, recording the word and the `pc` it was fetched from. That the next
state is `Halted` with nothing else changed is decision D10 (R91, R225; log 1, DEDUCED). -/
def Obligations.UnknownOpcodeHalts : Prop :=
  ∀ (s : State) (raw : Word16), s.status = .running → fetchWord s.mem s.pc.toNat = .ok raw →
    decodeWord s.params.strictDecode raw = .error (.unknown raw) →
    step s = .next { s with status := .halted ⟨.unknownOpcode, raw, s.pc, .unused⟩ }

/-- A Step that raises changes nothing except `status` (R91), and the record it leaves is the one of R224: the `pc` of the
Step, the word fetched there where one was fetched, and the `info` its kind asks for. Both are the spec's decision D10
(log 1). -/
def Obligations.RaisingStepChangesOnlyStatus : Prop :=
  ∀ (s t : State) (err : ErrorRecord), s.status = .running → step s = .next t → t.status = .halted err →
    t = { s with status := .halted err } ∧ err.pc = s.pc ∧
    (∀ raw, fetchWord s.mem s.pc.toNat = .ok raw → err.raw = raw) ∧ err.InfoFits

/-- Every Step of every state answers a next state: no fault and no refusal. An error is a next state because of R225,
"`status <- Halted(err)`", and R91, "`status` becomes `Halted(err)`", both the spec's decision D10 (log 1, DEDUCED). -/
def Obligations.EveryStepAnswersNext : Prop :=
  ∀ s : State, ∃ t, step s = .next t

/-- R88: each Step that does not raise decrements both timers to floor 0, from the values the execute phase left. R88
derives the order of load and decrement, and that the timers run during a key wait is decision D11 (R87; log 17,
DEDUCED and unsafe). -/
def Obligations.TimersDecrementOncePerStep : Prop :=
  ∀ (s t : State) (raw : Word16) (i : Instr), Fetches s raw i → step s = .next t → t.status = .running →
    (∀ x, i = .ldDtVx x → t.dt.toNat = (s.getV x).toNat - 1) ∧
    ((∀ x, i ≠ .ldDtVx x) → t.dt.toNat = s.dt.toNat - 1) ∧
    (∀ x, i = .ldStVx x → t.st.toNat = (s.getV x).toNat - 1) ∧
    ((∀ x, i ≠ .ldStVx x) → t.st.toNat = s.st.toNat - 1)

/-- At the end of a Step of LD ST,Vx the tone is on exactly when `V[x]` is at least 2 (R89, derived by the spec). It
rests on the decrement in the loading Step (log 17). -/
def Obligations.SoundTimerOneNeverSounds : Prop :=
  ∀ (s : State) (raw : Word16) (x : Reg), Fetches s raw (.ldStVx x) →
    ∃ t, step s = .next t ∧ (t.tone = true ↔ 2 ≤ (s.getV x).toNat)

/-- A Step spent awaiting a key is the timer phase only (R87, with the invariant of R36). That the timers run during a
key wait is decision D11, tagged in R87 (log 17, DEDUCED and unsafe). -/
def Obligations.AwaitingStepOnlyRunsTimers : Prop :=
  ∀ (s : State) (r : Reg), s.Inv → s.wait = .awaitingKey r →
    step s = .next { s with dt := if s.dt = 0 then 0 else s.dt - 1, st := if s.st = 0 then 0 else s.st - 1 }

/-! ## Control flow (41_control_flow.md) -/

/-- R103: JP addr. -/
def Obligations.JumpSetsPc : Prop :=
  ∀ (nnn : BitVec 12) (s : State),
    ∃ t, exec (.jp nnn) s = .next t ∧ t.pc.toNat = nnn.toNat ∧ Frame [.pc] [] s t

/-- R110: JP V0,addr, the plain sum, no mask and no wrap. -/
def Obligations.IndexedJumpSetsPc : Prop :=
  ∀ (nnn : BitVec 12) (s : State),
    ∃ t, exec (.jpV0Addr nnn) s = .next t ∧ t.pc.toNat = nnn.toNat + (s.getV 0).toNat ∧ Frame [.pc] [] s t

/-- R104: CALL addr pushes its own address; at depth 16 it raises StackOverflow. That the seventeenth entry raises is
decision D9 (R21; log 21, DEDUCED), and what a raise leaves is decision D10 (log 1, DEDUCED). -/
def Obligations.CallPushesItsAddress : Prop :=
  ∀ (nnn : BitVec 12) (s : State),
    (s.sp < 16 → ∃ t, exec (.call nnn) s = .next t ∧ t.stack = s.stack ++ [s.pc] ∧ t.sp = s.sp + 1 ∧
      t.pc.toNat = nnn.toNat ∧ Frame [.pc, .stack] [] s t) ∧
    (s.sp = 16 → Raises (.call nnn) .stackOverflow .unused s)

/-- R102: RET pops and continues at the popped address plus 2; on the empty stack it raises StackUnderflow. That the
empty stack raises is decision D9 (R22; log 21, DEDUCED), and what a raise leaves is decision D10 (log 1, DEDUCED). -/
def Obligations.ReturnPopsAndAddsTwo : Prop :=
  ∀ (d : BitVec 4) (s : State),
    (∀ rest a, s.stack = rest ++ [a] → ∃ t, exec (.ret d) s = .next t ∧ t.stack = rest ∧ t.sp + 1 = s.sp ∧
      t.pc = a + 2 ∧ Frame [.pc, .stack] [] s t) ∧
    (s.sp = 0 → Raises (.ret d) .stackUnderflow .unused s)

/-- A CALL and the RET that matches it continue two past the CALL, with the stack as before (R112, derived by the spec). -/
def Obligations.CallThenReturn : Prop :=
  ∀ (nnn : BitVec 12) (d : BitVec 4) (s : State), s.sp < 16 →
    ∃ t, exec (.call nnn) s = .next t ∧ ∀ u : State, u.stack = t.stack →
      ∃ w, exec (.ret d) u = .next w ∧ w.stack = s.stack ∧ w.pc = s.pc + 2

/-- R105, R106: skips on a register and an immediate. -/
def Obligations.SkipsOnImmediate : Prop :=
  ∀ (x : Reg) (kk : Byte) (s : State),
    SkipsWhen (.seVxKk x kk) (s.getV x = kk) s ∧ SkipsWhen (.sneVxKk x kk) (s.getV x ≠ kk) s

/-- R107, R108: skips on two registers, whatever the ignored bits. -/
def Obligations.SkipsOnRegisters : Prop :=
  ∀ (x y : Reg) (d : BitVec 4) (s : State),
    SkipsWhen (.seVxVy x y d) (s.getV x = s.getV y) s ∧ SkipsWhen (.sneVxVy x y d) (s.getV x ≠ s.getV y) s

/-! ## Register load, arithmetic, logic, random (42_register_alu.md) -/

/-- R120, R121: the immediate forms; the sum wraps modulo 256 and no flag is written. -/
def Obligations.ImmediateForms : Prop :=
  ∀ (x : Reg) (kk : Byte) (s : State),
    LoadsV (.ldVxKk x kk) x kk s ∧
    LoadsV (.addVxKk x kk) x (BitVec.ofNat 8 (((s.getV x).toNat + kk.toNat) % 256)) s

/-- R124 to R127: copy, OR, AND, XOR; VF is left alone unless it is the destination. -/
def Obligations.CopyAndLogicForms : Prop :=
  ∀ (x y : Reg) (s : State),
    LoadsV (.ldVxVy x y) x (s.getV y) s ∧
    LoadsV (.orVxVy x y) x (s.getV x ||| s.getV y) s ∧
    LoadsV (.andVxVy x y) x (s.getV x &&& s.getV y) s ∧
    LoadsV (.xorVxVy x y) x (s.getV x ^^^ s.getV y) s

/-- R128: ADD Vx,Vy, the carry in VF; with `x = 0xF` the sum stays in VF. What VF as an operand gives follows R86 and
R141, decision D5 (log 8, DEDUCED and unsafe). -/
def Obligations.AddWritesSumAndCarry : Prop :=
  ∀ (x y : Reg) (s : State),
    LoadsVAndFlag (.addVxVy x y) x (BitVec.ofNat 8 (((s.getV x).toNat + (s.getV y).toNat) % 256))
      (if (s.getV x).toNat + (s.getV y).toNat > 255 then 1 else 0) s

/-- R129, R131: SUB and SUBN, VF = 1 exactly when the minuend is strictly greater. What VF as an operand gives follows
R86 and R141, decision D5 (log 8, DEDUCED and unsafe). -/
def Obligations.SubtractWritesDifferenceAndFlag : Prop :=
  ∀ (x y : Reg) (s : State),
    LoadsVAndFlag (.subVxVy x y) x (BitVec.ofInt 8 (((s.getV x).toNat : Int) - (s.getV y).toNat))
      (if (s.getV x).toNat > (s.getV y).toNat then 1 else 0) s ∧
    LoadsVAndFlag (.subnVxVy x y) x (BitVec.ofInt 8 (((s.getV y).toNat : Int) - (s.getV x).toNat))
      (if (s.getV y).toNat > (s.getV x).toNat then 1 else 0) s

/-- R130, R132: SHR and SHL shift `V[x]` by one bit, the bit shifted out in VF; `y` plays no part. What VF as an
operand gives follows R86 and R141, decision D5 (log 8, DEDUCED and unsafe). -/
def Obligations.ShiftsWriteResultAndBitOut : Prop :=
  ∀ (x y : Reg) (s : State),
    LoadsVAndFlag (.shrVx x y) x (BitVec.ofNat 8 ((s.getV x).toNat / 2)) (BitVec.ofNat 8 ((s.getV x).toNat % 2)) s ∧
    LoadsVAndFlag (.shlVx x y) x (BitVec.ofNat 8 ((s.getV x).toNat * 2 % 256))
      (BitVec.ofNat 8 ((s.getV x).toNat / 128)) s

/-- R138: RND writes the drawn byte under the mask, so no bit outside `kk` is set, and consumes exactly one draw; no
other instruction consumes one. The byte is a free value: nothing is said of it. The draw counter is the model's own
(log 2). -/
def Obligations.RandomIsMaskedAndDrawsOnce : Prop :=
  (∀ (x : Reg) (kk : Byte) (s : State), ∃ t, exec (.rndVxKk x kk) s = .next t ∧
    t.getV x = Config.randomByte s.draws &&& kk ∧ t.getV x &&& ~~~kk = 0 ∧ t.draws = s.draws + 1 ∧
    t.pc = s.pc + 2 ∧ Frame [.pc, .draws] [x] s t) ∧
  (∀ (i : Instr) (s t : State), (∀ x kk, i ≠ .rndVxKk x kk) → exec i s = .next t → t.draws = s.draws)

/-! ## Index register and memory (43_index_and_memory.md) -/

/-- The instructions that write `I` (R150, R152, R154); VF is left alone. That ADD I,Vx wraps at 65536 is derived in R152 and
decision D7, and that LD F,Vx does not mask its digit is decision D21 (log 18, DEDUCED and unsafe). -/
def Obligations.IndexRegisterForms : Prop :=
  (∀ (nnn : BitVec 12) (s : State), ∃ t, exec (.ldIAddr nnn) s = .next t ∧ t.i.toNat = nnn.toNat ∧
    t.pc = s.pc + 2 ∧ Frame [.pc, .i] [] s t) ∧
  (∀ (x : Reg) (s : State), ∃ t, exec (.addIVx x) s = .next t ∧
    t.i.toNat = (s.i.toNat + (s.getV x).toNat) % 65536 ∧ t.pc = s.pc + 2 ∧ Frame [.pc, .i] [] s t) ∧
  (∀ (x : Reg) (s : State), ∃ t, exec (.ldFVx x) s = .next t ∧ t.i.toNat = (s.getV x).toNat * 5 ∧
    t.pc = s.pc + 2 ∧ Frame [.pc, .i] [] s t)

/-- R156: LD B,Vx stores the three decimal digits at `I`, `I + 1`, `I + 2` and nothing else; out of range it raises and
stores nothing. That `I` is not masked is decision D6 (R51; log 18, DEDUCED), and what a raise leaves is decision D10
(log 1, DEDUCED). -/
def Obligations.BcdStoresThreeDigits : Prop :=
  ∀ (x : Reg) (s : State),
    (s.mem.wf = true → s.i.toNat + 2 ≤ 0xFFF → ∃ t, exec (.ldBVx x) s = .next t ∧
      (t.mem.get s.i.toNat).toNat = (s.getV x).toNat / 100 ∧
      (t.mem.get (s.i.toNat + 1)).toNat = (s.getV x).toNat / 10 % 10 ∧
      (t.mem.get (s.i.toNat + 2)).toNat = (s.getV x).toNat % 10 ∧
      (∀ a, dataBase s = a → ∀ b, b < a ∨ a + 3 ≤ b → t.mem.get b = s.mem.get b) ∧
      t.pc = s.pc + 2 ∧ Frame [.pc, .mem] [] s t) ∧
    (s.i.toNat + 2 > 0xFFF → Raises (.ldBVx x) .boundsViolation (.address (max s.i.toNat 0x1000)) s)

/-- R158: LD [I],Vx stores `V[0]` to `V[x]` from `I` on and nothing else; out of range it raises and stores nothing.
That `I` is not masked is decision D6 and that it stays is decision D27 (R51, R162; log 18, DEDUCED and unsafe); what a
raise leaves is decision D10 (log 1, DEDUCED). -/
def Obligations.StoreRegistersRange : Prop :=
  ∀ (x : Reg) (s : State),
    (s.mem.wf = true → s.i.toNat + x ≤ 0xFFF → ∃ t, exec (.ldMemVx x) s = .next t ∧
      (∀ r : Reg, r ≤ x → t.mem.get (s.i.toNat + r) = s.getV r) ∧
      (∀ a, dataBase s = a → ∀ b, b < a ∨ a + x + 1 ≤ b → t.mem.get b = s.mem.get b) ∧
      t.pc = s.pc + 2 ∧ Frame [.pc, .mem] [] s t) ∧
    (s.i.toNat + x > 0xFFF → Raises (.ldMemVx x) .boundsViolation (.address (max s.i.toNat 0x1000)) s)

/-- R160: LD Vx,[I] loads `V[0]` to `V[x]` from `I` on; out of range it raises and writes no register. That `I` is not
masked is decision D6 and that it stays is decision D27 (R51, R162; log 18, DEDUCED and unsafe); what a raise leaves is
decision D10 (log 1, DEDUCED). -/
def Obligations.LoadRegistersRange : Prop :=
  ∀ (x : Reg) (s : State),
    (s.i.toNat + x ≤ 0xFFF → ∃ t, exec (.ldVxMem x) s = .next t ∧
      (∀ r : Reg, r ≤ x → t.getV r = s.mem.get (s.i.toNat + r)) ∧
      (∀ r : Reg, x < r → t.getV r = s.getV r) ∧
      t.pc = s.pc + 2 ∧ Frame [.pc] (List.finRange 16) s t) ∧
    (s.i.toNat + x > 0xFFF → Raises (.ldVxMem x) .boundsViolation (.address (max s.i.toNat 0x1000)) s)

/-- A byte pair stored by LD [I],Vx is the word that a later fetch reads there (R55, derived by the spec). -/
def Obligations.StoreIsSeenByFetch : Prop :=
  ∀ (x : Reg) (s t : State), s.mem.wf = true → 1 ≤ x → s.i.toNat + x ≤ 0xFFF → exec (.ldMemVx x) s = .next t →
    fetchWord t.mem s.i.toNat = .ok (joinBytes (s.getV 0) (s.getV 1))

/-! ## Display (44_display.md) -/

/-- R170: CLS turns every pixel off, and writes no register. -/
def Obligations.ClearScreen : Prop :=
  ∀ (d : BitVec 4) (s : State), ∃ t, exec (.cls d) s = .next t ∧ (∀ px py, t.pixelAt px py = false) ∧
    t.pc = s.pc + 2 ∧ Frame [.pc, .pix] [] s t

/-- DRW complements exactly the pixels it targets and sets VF to 1 exactly if one of them was on (R178, derived by the spec
from R173); a sprite byte out of range raises, with nothing drawn. The bit order is PRESUMED by the spec (its G3; log 7).
That `x` or `y` = VF positions the sprite by the old VF is decision D5 (R86, R173 (d); log 8, DEDUCED and unsafe).
The raise rests on decisions D6 (log 18) and D10 (log 1). -/
def Obligations.DrawComplementsTargets : Prop :=
  ∀ (x y : Reg) (n : Fin 16) (s : State),
    ((n : Nat) = 0 ∨ s.i.toNat + n - 1 ≤ 0xFFF → ∃ t, exec (.drw x y n) s = .next t ∧
      (∀ px py, Targets x y n s px py → t.pixelAt px py = !s.pixelAt px py) ∧
      (∀ px py, ¬Targets x y n s px py → t.pixelAt px py = s.pixelAt px py) ∧
      ((∃ px py, Targets x y n s px py ∧ s.pixelAt px py = true) → t.getV vf = 1) ∧
      ((¬∃ px py, Targets x y n s px py ∧ s.pixelAt px py = true) → t.getV vf = 0) ∧
      t.pc = s.pc + 2 ∧ Frame [.pc, .pix] [vf] s t) ∧
    ((n : Nat) > 0 ∧ s.i.toNat + n - 1 > 0xFFF →
      Raises (.drw x y n) .boundsViolation (.address (max s.i.toNat 0x1000)) s)

/-- The toggle property: the same sprite drawn twice at the same place restores every pixel (R173 (g), R178).
Coordinates from registers other than VF, so that the second draw is the same. The bit order is PRESUMED by the spec
(its G3; log 7). -/
def Obligations.DrawTwiceRestores : Prop :=
  ∀ (x y : Reg) (n : Fin 16) (s t : State), x ≠ vf → y ≠ vf → ((n : Nat) = 0 ∨ s.i.toNat + n - 1 ≤ 0xFFF) →
    exec (.drw x y n) s = .next t →
    ∃ u, exec (.drw x y n) t = .next u ∧ ∀ px py, u.pixelAt px py = s.pixelAt px py

/-! ## Keypad and timers (45_keypad_and_timers.md) -/

/-- SKP and SKNP test the key named by the value of `V[x]`, 0x0 to 0xF (R190, R191); a value above 0xF is treated as each
KEY_INDEX_POLICY says (R192, the spec's decision D15; log 19); what a raise leaves is decision D10 (log 1). -/
def Obligations.KeySkips : Prop :=
  ∀ (x : Reg) (s : State),
    (∀ k : Key, (s.getV x).toNat = k →
      SkipsWhen (.skpVx x) (s.key k = true) s ∧ SkipsWhen (.sknpVx x) (s.key k = false) s) ∧
    ((s.getV x).toNat > 0xF → s.params.keyIndexPolicy = .fault →
      Raises (.skpVx x) .keyIndexOutOfRange (.keyValue (s.getV x)) s ∧
      Raises (.sknpVx x) .keyIndexOutOfRange (.keyValue (s.getV x)) s) ∧
    ((s.getV x).toNat > 0xF → s.params.keyIndexPolicy = .mask → ∀ k : Key, (k : Nat) = (s.getV x).toNat % 16 →
      SkipsWhen (.skpVx x) (s.key k = true) s ∧ SkipsWhen (.sknpVx x) (s.key k = false) s) ∧
    ((s.getV x).toNat > 0xF → s.params.keyIndexPolicy = .notHeld →
      SkipsWhen (.skpVx x) False s ∧ SkipsWhen (.sknpVx x) True s)

/-- R194: LD Vx,DT reads `DT` before the timer phase. -/
def Obligations.ReadDelayTimer : Prop :=
  ∀ (x : Reg) (s : State), LoadsV (.ldVxDt x) x s.dt s

/-- R197, R198: LD DT,Vx and LD ST,Vx, in the execute phase. -/
def Obligations.LoadTimers : Prop :=
  ∀ (x : Reg) (s : State),
    (∃ t, exec (.ldDtVx x) s = .next t ∧ t.dt = s.getV x ∧ t.pc = s.pc + 2 ∧ Frame [.pc, .dt] [] s t) ∧
    (∃ t, exec (.ldStVx x) s = .next t ∧ t.st = s.getV x ∧ t.pc = s.pc + 2 ∧ Frame [.pc, .st] [] s t)

/-- R196: LD Vx,K enters the wait, or continues it unchanged; `pc` stays and no register is written. -/
def Obligations.KeyWaitEntersOrContinues : Prop :=
  ∀ (x : Reg) (s : State),
    (s.wait = .normal → ∃ t, exec (.ldVxK x) s = .next t ∧ t.wait = .awaitingKey x ∧ Frame [.wait] [] s t) ∧
    (∀ r, s.wait = .awaitingKey r → exec (.ldVxK x) s = .next s)

/-- KeyDown sets the held flag, resolves a pending wait, and does nothing to a halted core (R200). That it resolves the wait
whatever the flag was is decision D16, and that a halted core ignores it is decision D19 (log 19, DEDUCED and unsafe). -/
def Obligations.KeyDownResolvesWait : Prop :=
  ∀ (k : Key) (s : State),
    (∀ err, s.status = .halted err → event (.keyDown k) s = .next s) ∧
    (s.status = .running → ∃ t, event (.keyDown k) s = .next t ∧ t.key k = true ∧
      (∀ j, j ≠ k → t.key j = s.key j) ∧
      (s.wait = .normal → Frame [.keys] [] s t) ∧
      (∀ r, s.wait = .awaitingKey r → (t.getV r).toNat = k ∧ t.pc = s.pc + 2 ∧ t.wait = .normal ∧
        Frame [.keys, .pc, .wait] [r] s t))

/-- R201: KeyUp clears the held flag and nothing else; it never resolves a wait. That a halted core ignores the event
is decision D19 (log 19, DEDUCED). -/
def Obligations.KeyUpOnlyClearsFlag : Prop :=
  ∀ (k : Key) (s : State),
    (∀ err, s.status = .halted err → event (.keyUp k) s = .next s) ∧
    (s.status = .running → ∃ t, event (.keyUp k) s = .next t ∧ t.key k = false ∧
      (∀ j, j ≠ k → t.key j = s.key j) ∧ Frame [.keys] [] s t)

/-- A Step in `Normal` leaves it only by LD Vx,K, into `AwaitingKey(x)` with `pc` not advanced (the first two rows of the
table of R202). -/
def Obligations.OnlyKeyWaitEntersAwaiting : Prop :=
  ∀ (s t : State) (raw : Word16) (i : Instr), Fetches s raw i → s.wait = .normal → step s = .next t →
    (∀ x, i = .ldVxK x → t.wait = .awaitingKey x ∧ t.pc = s.pc) ∧
    ((∀ x, i ≠ .ldVxK x) → t.wait = .normal)

/-! ## Reset (10_state.md R34, 70_reset_and_hazards.md R250, R251) -/

/-- Every piece of state after Reset(rom), for any FONT and any image that fits, from any state (R250). The values of `I`,
`DT`, `ST`, the key flags, `wait` and `status` are the spec's own choice, its decisions D10 and D12, not the source's list
(log 15, DEDUCED and unsafe). -/
def Obligations.ResetReinitialisesEverything : Prop :=
  ∀ (font : Font) (rom : List Byte) (s : State), rom.length ≤ 3584 → ∃ t, event (.reset font rom) s = .next t ∧
    (∀ a, a < 80 → t.mem.get a = fontByte font a) ∧
    (∀ a, 80 ≤ a → a < 0x200 → t.mem.get a = 0) ∧
    (∀ j (h : j < rom.length), t.mem.get (0x200 + j) = rom[j]) ∧
    (∀ a, 0x200 + rom.length ≤ a → t.mem.get a = 0) ∧
    (∀ r, t.getV r = 0) ∧ t.i = 0 ∧ t.pc = 0x200 ∧ t.stack = [] ∧ t.sp = 0 ∧ t.dt = 0 ∧ t.st = 0 ∧ t.tone = false ∧
    (∀ px py, t.pixelAt px py = false) ∧ (∀ k, t.key k = false) ∧ t.wait = .normal ∧ t.status = .running

/-- R251: an image longer than 3584 bytes is refused. This is the spec's decision D18 (log 16). -/
def Obligations.OversizeImageIsRefused : Prop :=
  ∀ (font : Font) (rom : List Byte) (s : State), rom.length > 3584 →
    event (.reset font rom) s = .refused (.romTooLong rom.length)

/-- The model's reset state is the one the spec tabulates, with the default FONT and an empty image, so its memory
lists nothing. The FONT bytes are PRESUMED by the spec (its G2; log 5), `params` and `draws` are the model's (log 2,
log 4). The values of `I`, `DT`, `ST`, the key flags, `wait` and `status` are decisions D10 and D12 (log 15). -/
def Obligations.ResetStateIsAnEmptyReset : Prop :=
  resetMemory defaultFont [] = State.reset.mem ∧ State.reset.mem = ⟨[]⟩ ∧
  ∀ s : State, event (.reset defaultFont []) s =
    .next { State.reset with params := s.params, draws := s.draws + 1 }

/-- R229: of the four events only Reset leaves `Halted`; the others change nothing there. That Step, KeyDown and KeyUp
change nothing in `Halted` is decision D19, tagged in R229 (log 19, DEDUCED). -/
def Obligations.OnlyResetLeavesHalted : Prop :=
  ∀ (e : Event) (s t : State) (err : ErrorRecord), s.status = .halted err → (∀ font rom, e ≠ .reset font rom) →
    event e s = .next t → t = s

/-! ## Invariants (10_state.md R36) -/

/-- The invariant holds at reset. That no wait is pending there is decision D12 (log 15). -/
def Obligations.InvariantAtReset : Prop := State.reset.Inv

/-- Every Step keeps the invariant: canonical memory, at most 16 stack entries each at most 0xFFE, `pc` at most 0x10FE, and
a pending wait stands on its LD Vx,K of a running core (R36, derived by the spec). -/
def Obligations.StepKeepsInvariant : Prop :=
  ∀ s t : State, s.Inv → step s = .next t → t.Inv

/-- Every event of the host keeps the invariant, and Reset establishes it from any state. The invariant is the spec's
derivation (R36); the effect of key events and of Reset on `wait` and `status` is by its decisions D10, D12, D16 and
D19 (log 15, log 19). -/
def Obligations.EventKeepsInvariant : Prop :=
  (∀ (e : Event) (s t : State), s.Inv → event e s = .next t → t.Inv) ∧
  (∀ (font : Font) (rom : List Byte) (s t : State), event (.reset font rom) s = .next t → t.Inv)

/-! ## Rules about all instructions -/

/-- R227, execute phase: the listed instructions raise the listed errors under the listed conditions, and nothing else
raises. The depth premise is part of the invariant. That a raise is the state `Halted` is decision D10 (log 1); the key
error depends on KEY_INDEX_POLICY, decision D15 (log 19). -/
def Obligations.OnlyListedInstructionsRaise : Prop :=
  ∀ (i : Instr) (s : State), s.status = .running → s.sp ≤ 16 → ∃ t, exec i s = .next t ∧
    (expectedError i s = none → t.status = .running) ∧
    (∀ kind, expectedError i s = some kind → ∃ err, t.status = .halted err ∧ err.kind = kind)

/-- R227, the whole Step: fetch, then dispatch, then the execute phase of the instruction; a Step that none of the
three stops runs on. That a raise is a next state that is `Halted` is decision D10 (log 1, DEDUCED); that SKP and SKNP
raise only under the fault policy is decision D15 (log 19, DEDUCED). -/
def Obligations.StepRaisesExactlyAsListed : Prop :=
  ∀ s : State, s.status = .running → s.sp ≤ 16 → ∃ t, step s = .next t ∧
    (s.pc.toNat > 0xFFE → ∃ err, t.status = .halted err ∧ err.kind = .boundsViolation) ∧
    (∀ raw, fetchWord s.mem s.pc.toNat = .ok raw → (∀ i : Instr, i.row.matchesWord s.params.strictDecode raw = false) →
      ∃ err, t.status = .halted err ∧ err.kind = .unknownOpcode) ∧
    (∀ raw i, Fetches s raw i →
      (expectedError i s = none → t.status = .running) ∧
      (∀ kind, expectedError i s = some kind → ∃ err, t.status = .halted err ∧ err.kind = kind))

/-- Each part of the state is written only by the instructions the spec names for it: memory R41, display R25, `I` R17,
stack R19, timers R23 and R24, wait R28; no instruction writes a key flag R27 or a parameter. That LD [I],Vx and LD
Vx,[I] leave `I` unchanged is decision D27 (log 18). -/
def Obligations.OnlyNamedInstructionsWriteEachPart : Prop :=
  ∀ (i : Instr) (s t : State), exec i s = .next t →
    (t.mem = s.mem ∨ ∃ x, i = .ldBVx x ∨ i = .ldMemVx x) ∧
    (t.pix = s.pix ∨ (∃ d, i = .cls d) ∨ ∃ x y n, i = .drw x y n) ∧
    (t.i = s.i ∨ (∃ nnn, i = .ldIAddr nnn) ∨ ∃ x, i = .addIVx x ∨ i = .ldFVx x) ∧
    (t.stack = s.stack ∨ (∃ nnn, i = .call nnn) ∨ ∃ d, i = .ret d) ∧
    (t.dt = s.dt ∨ ∃ x, i = .ldDtVx x) ∧ (t.st = s.st ∨ ∃ x, i = .ldStVx x) ∧
    (t.wait = s.wait ∨ ∃ x, i = .ldVxK x) ∧ t.keys = s.keys ∧ t.params = s.params

/-- R13: a register changes only as a destination, or, for VF, by one of the six instructions that write a flag. -/
def Obligations.RegistersChangeOnlyAsDestinations : Prop :=
  ∀ (i : Instr) (s t : State) (r : Reg), exec i s = .next t → t.getV r ≠ s.getV r →
    hasDestination i r = true ∨ (r = vf ∧ writesFlag i = true)
end

