-- ==== Sys2Proof/Laws/State.lean ====
section
/-! SUPPORT. One lemma per field per update of the state, each true by unfolding once. -/

namespace Sys2Proof.Machine

/-! ## `State.setV` -/

@[simp] theorem State.setV_mem (s : State) (x : Reg) (b : Byte) : (s.setV x b).mem = s.mem := rfl
@[simp] theorem State.setV_v (s : State) (x : Reg) (b : Byte) : (s.setV x b).v = s.v.set x b := rfl
@[simp] theorem State.setV_i (s : State) (x : Reg) (b : Byte) : (s.setV x b).i = s.i := rfl
@[simp] theorem State.setV_pc (s : State) (x : Reg) (b : Byte) : (s.setV x b).pc = s.pc := rfl
@[simp] theorem State.setV_stack (s : State) (x : Reg) (b : Byte) : (s.setV x b).stack = s.stack := rfl
@[simp] theorem State.setV_dt (s : State) (x : Reg) (b : Byte) : (s.setV x b).dt = s.dt := rfl
@[simp] theorem State.setV_st (s : State) (x : Reg) (b : Byte) : (s.setV x b).st = s.st := rfl
@[simp] theorem State.setV_pix (s : State) (x : Reg) (b : Byte) : (s.setV x b).pix = s.pix := rfl
@[simp] theorem State.setV_keys (s : State) (x : Reg) (b : Byte) : (s.setV x b).keys = s.keys := rfl
@[simp] theorem State.setV_wait (s : State) (x : Reg) (b : Byte) : (s.setV x b).wait = s.wait := rfl
@[simp] theorem State.setV_status (s : State) (x : Reg) (b : Byte) : (s.setV x b).status = s.status := rfl
@[simp] theorem State.setV_params (s : State) (x : Reg) (b : Byte) : (s.setV x b).params = s.params := rfl
@[simp] theorem State.setV_draws (s : State) (x : Reg) (b : Byte) : (s.setV x b).draws = s.draws := rfl

/-! ## `State.setFlagThenV` -/

@[simp] theorem State.setFlagThenV_mem (s : State) (f : Byte) (x : Reg) (b : Byte) : (s.setFlagThenV f x b).mem = s.mem := rfl
@[simp] theorem State.setFlagThenV_v (s : State) (f : Byte) (x : Reg) (b : Byte) : (s.setFlagThenV f x b).v = (s.v.set vf f).set x b := rfl
@[simp] theorem State.setFlagThenV_i (s : State) (f : Byte) (x : Reg) (b : Byte) : (s.setFlagThenV f x b).i = s.i := rfl
@[simp] theorem State.setFlagThenV_pc (s : State) (f : Byte) (x : Reg) (b : Byte) : (s.setFlagThenV f x b).pc = s.pc := rfl
@[simp] theorem State.setFlagThenV_stack (s : State) (f : Byte) (x : Reg) (b : Byte) : (s.setFlagThenV f x b).stack = s.stack := rfl
@[simp] theorem State.setFlagThenV_dt (s : State) (f : Byte) (x : Reg) (b : Byte) : (s.setFlagThenV f x b).dt = s.dt := rfl
@[simp] theorem State.setFlagThenV_st (s : State) (f : Byte) (x : Reg) (b : Byte) : (s.setFlagThenV f x b).st = s.st := rfl
@[simp] theorem State.setFlagThenV_pix (s : State) (f : Byte) (x : Reg) (b : Byte) : (s.setFlagThenV f x b).pix = s.pix := rfl
@[simp] theorem State.setFlagThenV_keys (s : State) (f : Byte) (x : Reg) (b : Byte) : (s.setFlagThenV f x b).keys = s.keys := rfl
@[simp] theorem State.setFlagThenV_wait (s : State) (f : Byte) (x : Reg) (b : Byte) : (s.setFlagThenV f x b).wait = s.wait := rfl
@[simp] theorem State.setFlagThenV_status (s : State) (f : Byte) (x : Reg) (b : Byte) : (s.setFlagThenV f x b).status = s.status := rfl
@[simp] theorem State.setFlagThenV_params (s : State) (f : Byte) (x : Reg) (b : Byte) : (s.setFlagThenV f x b).params = s.params := rfl
@[simp] theorem State.setFlagThenV_draws (s : State) (f : Byte) (x : Reg) (b : Byte) : (s.setFlagThenV f x b).draws = s.draws := rfl

/-! ## `State.advance` -/

@[simp] theorem State.advance_mem (s : State) : (s.advance).mem = s.mem := rfl
@[simp] theorem State.advance_v (s : State) : (s.advance).v = s.v := rfl
@[simp] theorem State.advance_i (s : State) : (s.advance).i = s.i := rfl
@[simp] theorem State.advance_pc (s : State) : (s.advance).pc = s.pc + 2 := rfl
@[simp] theorem State.advance_stack (s : State) : (s.advance).stack = s.stack := rfl
@[simp] theorem State.advance_dt (s : State) : (s.advance).dt = s.dt := rfl
@[simp] theorem State.advance_st (s : State) : (s.advance).st = s.st := rfl
@[simp] theorem State.advance_pix (s : State) : (s.advance).pix = s.pix := rfl
@[simp] theorem State.advance_keys (s : State) : (s.advance).keys = s.keys := rfl
@[simp] theorem State.advance_wait (s : State) : (s.advance).wait = s.wait := rfl
@[simp] theorem State.advance_status (s : State) : (s.advance).status = s.status := rfl
@[simp] theorem State.advance_params (s : State) : (s.advance).params = s.params := rfl
@[simp] theorem State.advance_draws (s : State) : (s.advance).draws = s.draws := rfl

/-! ## `State.skipIf` -/

@[simp] theorem State.skipIf_mem (s : State) (c : Bool) : (s.skipIf c).mem = s.mem := rfl
@[simp] theorem State.skipIf_v (s : State) (c : Bool) : (s.skipIf c).v = s.v := rfl
@[simp] theorem State.skipIf_i (s : State) (c : Bool) : (s.skipIf c).i = s.i := rfl
@[simp] theorem State.skipIf_pc (s : State) (c : Bool) : (s.skipIf c).pc = s.pc + (if c then 4 else 2) := rfl
@[simp] theorem State.skipIf_stack (s : State) (c : Bool) : (s.skipIf c).stack = s.stack := rfl
@[simp] theorem State.skipIf_dt (s : State) (c : Bool) : (s.skipIf c).dt = s.dt := rfl
@[simp] theorem State.skipIf_st (s : State) (c : Bool) : (s.skipIf c).st = s.st := rfl
@[simp] theorem State.skipIf_pix (s : State) (c : Bool) : (s.skipIf c).pix = s.pix := rfl
@[simp] theorem State.skipIf_keys (s : State) (c : Bool) : (s.skipIf c).keys = s.keys := rfl
@[simp] theorem State.skipIf_wait (s : State) (c : Bool) : (s.skipIf c).wait = s.wait := rfl
@[simp] theorem State.skipIf_status (s : State) (c : Bool) : (s.skipIf c).status = s.status := rfl
@[simp] theorem State.skipIf_params (s : State) (c : Bool) : (s.skipIf c).params = s.params := rfl
@[simp] theorem State.skipIf_draws (s : State) (c : Bool) : (s.skipIf c).draws = s.draws := rfl

/-! ## `State.halt` -/

@[simp] theorem State.halt_mem (s : State) (e : ErrorRecord) : (s.halt e).mem = s.mem := rfl
@[simp] theorem State.halt_v (s : State) (e : ErrorRecord) : (s.halt e).v = s.v := rfl
@[simp] theorem State.halt_i (s : State) (e : ErrorRecord) : (s.halt e).i = s.i := rfl
@[simp] theorem State.halt_pc (s : State) (e : ErrorRecord) : (s.halt e).pc = s.pc := rfl
@[simp] theorem State.halt_stack (s : State) (e : ErrorRecord) : (s.halt e).stack = s.stack := rfl
@[simp] theorem State.halt_dt (s : State) (e : ErrorRecord) : (s.halt e).dt = s.dt := rfl
@[simp] theorem State.halt_st (s : State) (e : ErrorRecord) : (s.halt e).st = s.st := rfl
@[simp] theorem State.halt_pix (s : State) (e : ErrorRecord) : (s.halt e).pix = s.pix := rfl
@[simp] theorem State.halt_keys (s : State) (e : ErrorRecord) : (s.halt e).keys = s.keys := rfl
@[simp] theorem State.halt_wait (s : State) (e : ErrorRecord) : (s.halt e).wait = s.wait := rfl
@[simp] theorem State.halt_status (s : State) (e : ErrorRecord) : (s.halt e).status = .halted e := rfl
@[simp] theorem State.halt_params (s : State) (e : ErrorRecord) : (s.halt e).params = s.params := rfl
@[simp] theorem State.halt_draws (s : State) (e : ErrorRecord) : (s.halt e).draws = s.draws := rfl

/-! ## `State.tick` -/

@[simp] theorem State.tick_mem (s : State) : (s.tick).mem = s.mem := rfl
@[simp] theorem State.tick_v (s : State) : (s.tick).v = s.v := rfl
@[simp] theorem State.tick_i (s : State) : (s.tick).i = s.i := rfl
@[simp] theorem State.tick_pc (s : State) : (s.tick).pc = s.pc := rfl
@[simp] theorem State.tick_stack (s : State) : (s.tick).stack = s.stack := rfl
@[simp] theorem State.tick_dt (s : State) : (s.tick).dt = decrement s.dt := rfl
@[simp] theorem State.tick_st (s : State) : (s.tick).st = decrement s.st := rfl
@[simp] theorem State.tick_pix (s : State) : (s.tick).pix = s.pix := rfl
@[simp] theorem State.tick_keys (s : State) : (s.tick).keys = s.keys := rfl
@[simp] theorem State.tick_wait (s : State) : (s.tick).wait = s.wait := rfl
@[simp] theorem State.tick_status (s : State) : (s.tick).status = s.status := rfl
@[simp] theorem State.tick_params (s : State) : (s.tick).params = s.params := rfl
@[simp] theorem State.tick_draws (s : State) : (s.tick).draws = s.draws := rfl

/-! ## `State.setKey` -/

@[simp] theorem State.setKey_mem (s : State) (k : Key) (h : Bool) : (s.setKey k h).mem = s.mem := rfl
@[simp] theorem State.setKey_v (s : State) (k : Key) (h : Bool) : (s.setKey k h).v = s.v := rfl
@[simp] theorem State.setKey_i (s : State) (k : Key) (h : Bool) : (s.setKey k h).i = s.i := rfl
@[simp] theorem State.setKey_pc (s : State) (k : Key) (h : Bool) : (s.setKey k h).pc = s.pc := rfl
@[simp] theorem State.setKey_stack (s : State) (k : Key) (h : Bool) : (s.setKey k h).stack = s.stack := rfl
@[simp] theorem State.setKey_dt (s : State) (k : Key) (h : Bool) : (s.setKey k h).dt = s.dt := rfl
@[simp] theorem State.setKey_st (s : State) (k : Key) (h : Bool) : (s.setKey k h).st = s.st := rfl
@[simp] theorem State.setKey_pix (s : State) (k : Key) (h : Bool) : (s.setKey k h).pix = s.pix := rfl
@[simp] theorem State.setKey_keys (s : State) (k : Key) (h : Bool) : (s.setKey k h).keys = s.keys.set k h := rfl
@[simp] theorem State.setKey_wait (s : State) (k : Key) (h : Bool) : (s.setKey k h).wait = s.wait := rfl
@[simp] theorem State.setKey_status (s : State) (k : Key) (h : Bool) : (s.setKey k h).status = s.status := rfl
@[simp] theorem State.setKey_params (s : State) (k : Key) (h : Bool) : (s.setKey k h).params = s.params := rfl
@[simp] theorem State.setKey_draws (s : State) (k : Key) (h : Bool) : (s.setKey k h).draws = s.draws := rfl

end Sys2Proof.Machine
end

