-- ==== Sys2Proof/Laws/Display.lean ====
section
/-! SUPPORT. What the display operations do to each pixel (44_display.md R171, R173). -/

namespace Sys2Proof.Machine

@[simp] theorem pixel_clearDisplay (px : Fin 64) (py : Fin 32) : pixel clearDisplay px py = false := by
  simp [pixel, clearDisplay]

/-- A toggle complements its pixel and no other. -/
theorem pixel_togglePixel (d : Display) (px qx : Fin 64) (py qy : Fin 32) :
    pixel (togglePixel d px py) qx qy = (pixel d qx qy ^^ decide (qx = px ∧ qy = py)) := by
  by_cases hy : qy = py
  · subst hy
    by_cases hx : qx = px
    · subst hx; simp [pixel, togglePixel]
    · have : (qx : Nat) ≠ px := fun e => hx (Fin.ext e)
      simp [pixel, togglePixel, this, hx]
  · have : (py : Nat) ≠ qy := fun e => hy (Fin.ext e.symm)
    simp [pixel, togglePixel, hy, this]

/-- The outcome of drawing on `acc` when exactly the pixels of `T` are targeted, each once: they are complemented, and the
flag is raised if one of them was on. -/
structure Drawn (T : Fin 64 → Fin 32 → Prop) (acc out : Display × Bool) : Prop where
  on  : ∀ qx qy, T qx qy → pixel out.1 qx qy = !pixel acc.1 qx qy
  off : ∀ qx qy, ¬T qx qy → pixel out.1 qx qy = pixel acc.1 qx qy
  hit : out.2 = true ↔ acc.2 = true ∨ ∃ qx qy, T qx qy ∧ pixel acc.1 qx qy = true

theorem Drawn.nothing {T : Fin 64 → Fin 32 → Prop} (h : ∀ qx qy, ¬T qx qy) (acc : Display × Bool) :
    Drawn T acc acc where
  on _ _ ht := absurd ht (h _ _)
  off _ _ _ := rfl
  hit := ⟨.inl, fun | .inl e => e | .inr ⟨qx, qy, ht, _⟩ => absurd ht (h qx qy)⟩

theorem Drawn.one (px : Fin 64) (py : Fin 32) (acc : Display × Bool) :
    Drawn (fun qx qy => qx = px ∧ qy = py) acc (plot px py acc) where
  on qx qy h := by simp [plot, pixel_togglePixel, h]
  off qx qy h := by simp [plot, pixel_togglePixel, h]
  hit := by simp [plot]

/-- Drawing two disjoint sets one after the other draws their union. -/
theorem Drawn.both {T U : Fin 64 → Fin 32 → Prop} {acc mid out : Display × Bool} (h₁ : Drawn T acc mid)
    (h₂ : Drawn U mid out) (disjoint : ∀ qx qy, T qx qy → ¬U qx qy) :
    Drawn (fun qx qy => T qx qy ∨ U qx qy) acc out where
  on qx qy h := by
    rcases h with ht | hu
    · rw [h₂.off _ _ (disjoint _ _ ht), h₁.on _ _ ht]
    · rw [h₂.on _ _ hu, h₁.off _ _ fun ht => disjoint _ _ ht hu]
  off qx qy h := by
    rw [h₂.off _ _ fun hu => h (.inr hu), h₁.off _ _ fun ht => h (.inl ht)]
  hit := by
    rw [h₂.hit, h₁.hit, or_assoc]
    refine or_congr_right ⟨?_, ?_⟩
    · rintro (⟨qx, qy, ht, hp⟩ | ⟨qx, qy, hu, hp⟩)
      · exact ⟨qx, qy, .inl ht, hp⟩
      · exact ⟨qx, qy, .inr hu, by rwa [h₁.off _ _ fun ht => disjoint _ _ ht hu] at hp⟩
    · rintro ⟨qx, qy, ht | hu, hp⟩
      · exact .inl ⟨qx, qy, ht, hp⟩
      · exact .inr ⟨qx, qy, hu, by rwa [h₁.off _ _ fun ht => disjoint _ _ ht hu]⟩

theorem Drawn.congr {T U : Fin 64 → Fin 32 → Prop} {acc out : Display × Bool} (h : Drawn T acc out)
    (e : ∀ qx qy, T qx qy ↔ U qx qy) : Drawn U acc out := by
  rwa [show T = U from funext fun qx => funext fun qy => propext (e qx qy)] at h

/-- The pixels of one sprite row whose columns are below `n`. -/
def rowTargets (x0 y : Nat) (b : Byte) (n : Nat) (qx : Fin 64) (qy : Fin 32) : Prop :=
  ∃ col, col < n ∧ spriteBit b col = true ∧ qx = wrapX (x0 + col) ∧ qy = wrapY y

theorem wrapX_val (n : Nat) : (wrapX n : Nat) = n % 64 := rfl
theorem wrapY_val (n : Nat) : (wrapY n : Nat) = n % 32 := rfl

/-- One sprite row draws its set columns. -/
theorem drawn_row (x0 y : Nat) (b : Byte) (acc : Display × Bool) :
    Drawn (rowTargets x0 y b 8) acc (drawRow x0 y b acc) := by
  suffices h : ∀ n ≤ 8, Drawn (rowTargets x0 y b n) acc ((List.range n).foldl (fun acc col =>
      if spriteBit b col then plot (wrapX (x0 + col)) (wrapY y) acc else acc) acc) from h 8 (Nat.le_refl 8)
  intro n hn
  induction n with
  | zero => exact Drawn.nothing (fun _ _ ⟨_, h, _⟩ => absurd h (Nat.not_lt_zero _)) acc
  | succ n ih =>
    rw [List.range_succ, List.foldl_append]
    simp only [List.foldl_cons, List.foldl_nil]
    split
    · next hb =>
      refine ((ih (by omega)).both (Drawn.one _ _ _) ?_).congr fun qx qy => ?_
      · rintro qx qy ⟨col, hc, -, hx, -⟩ ⟨hx', -⟩
        have := congrArg Fin.val (hx.symm.trans hx')
        simp only [wrapX_val] at this
        omega
      · constructor
        · rintro (⟨col, hc, h⟩ | ⟨hx, hy⟩)
          · exact ⟨col, by omega, h⟩
          · exact ⟨n, by omega, hb, hx, hy⟩
        · rintro ⟨col, hc, h⟩
          by_cases e : col = n
          · subst e; exact .inr h.2
          · exact .inl ⟨col, by omega, h⟩
    · next hb =>
      refine (ih (by omega)).congr fun qx qy => ⟨fun ⟨col, hc, h⟩ => ⟨col, by omega, h⟩, fun ⟨col, hc, h⟩ => ?_⟩
      have : col ≠ n := fun e => hb (e ▸ h.1)
      exact ⟨col, by omega, h⟩

/-- The pixels of the sprite rows from `y` on. -/
def spriteTargets (x0 y : Nat) (rows : List Byte) (qx : Fin 64) (qy : Fin 32) : Prop :=
  ∃ row b, rows[row]? = some b ∧ rowTargets x0 (y + row) b 8 qx qy

theorem drawn_rows (x0 y : Nat) (rows : List Byte) (h : rows.length ≤ 32) (acc : Display × Bool) :
    Drawn (spriteTargets x0 y rows) acc (drawRows x0 y rows acc) := by
  induction rows generalizing y acc with
  | nil => exact Drawn.nothing (fun _ _ ⟨_, _, h, _⟩ => by simp at h) acc
  | cons b bs ih =>
    simp only [List.length_cons] at h
    refine ((drawn_row x0 y b acc).both (ih (y + 1) (by omega) _) ?_).congr fun qx qy => ?_
    · rintro qx qy ⟨-, -, -, -, hy⟩ ⟨row, c, hr, -, -, -, -, hy'⟩
      have hlt := (List.getElem?_eq_some_iff.1 hr).1
      have := congrArg Fin.val (hy.symm.trans hy')
      simp only [wrapY_val] at this
      omega
    · constructor
      · rintro (h | ⟨row, c, hr, ht⟩)
        · exact ⟨0, b, by simp, h⟩
        · exact ⟨row + 1, c, by simpa using hr, by rwa [show y + (row + 1) = y + 1 + row by omega]⟩
      · rintro ⟨row, c, hr, ht⟩
        cases row with
        | zero => exact .inl (by simpa [show b = c by simpa using hr] using ht)
        | succ row => exact .inr ⟨row, c, by simpa using hr, by rwa [show y + 1 + row = y + (row + 1) by omega]⟩

/-- What the drawing loop does: it complements the targeted pixels and reports one that was on (R173 (e)). -/
theorem drawn_sprite (x0 y0 : Nat) (rows : List Byte) (h : rows.length ≤ 32) (d : Display) :
    Drawn (spriteTargets x0 y0 rows) (d, false) (drawSprite x0 y0 rows d) := drawn_rows x0 y0 rows h (d, false)

end Sys2Proof.Machine
end

