-- ==== Sys2Proof/Laws/Encoding.lean ====
section
/-! SUPPORT. The fields of the words the encoder builds, and the words rebuilt from their fields. -/

namespace Sys2Proof

/-! ## Parts of a concatenation -/

theorem extract_high {n m : Nat} (a : BitVec n) (b : BitVec m) : (a ++ b).extractLsb' m n = a := by
  rw [BitVec.extractLsb'_append_eq_of_le (Nat.le_refl m)]; simp

theorem extract_low {n m : Nat} (a : BitVec n) (b : BitVec m) : (a ++ b).extractLsb' 0 m = b := by
  rw [BitVec.extractLsb'_append_eq_of_add_le (by omega)]; simp

theorem extract_inside_low {n m : Nat} (a : BitVec n) (b : BitVec m) {start len : Nat} (h : start + len ≤ m) :
    (a ++ b).extractLsb' start len = b.extractLsb' start len :=
  BitVec.extractLsb'_append_eq_of_add_le h

/-! ## Register selectors -/

@[simp] theorem regBits_toFin (r : Fin 16) : (regBits r).toFin = r := rfl

@[simp] theorem regBits_fieldX (w : Word16) : regBits (fieldX w) = fieldXBits w := rfl
@[simp] theorem regBits_fieldY (w : Word16) : regBits (fieldY w) = fieldYBits w := rfl
@[simp] theorem regBits_fieldN (w : Word16) : regBits (fieldN w) = fieldNBits w := rfl

/-! ## Format NNN -/

@[simp] theorem fieldGroup_wordNnn (g : BitVec 4) (nnn : BitVec 12) : fieldGroup (wordNnn g nnn) = g :=
  extract_high g nnn

@[simp] theorem fieldNnn_wordNnn (g : BitVec 4) (nnn : BitVec 12) : fieldNnn (wordNnn g nnn) = nnn :=
  extract_low g nnn

/-! ## Formats XKK, OP and XS -/

@[simp] theorem fieldGroup_wordXkk (g x : BitVec 4) (kk : Byte) : fieldGroup (wordXkk g x kk) = g :=
  extract_high g (x ++ kk : BitVec 12)

@[simp] theorem fieldXBits_wordXkk (g x : BitVec 4) (kk : Byte) : fieldXBits (wordXkk g x kk) = x :=
  (extract_inside_low g (x ++ kk : BitVec 12) (by omega)).trans (extract_high x kk)

@[simp] theorem fieldX_wordXkk (g x : BitVec 4) (kk : Byte) : fieldX (wordXkk g x kk) = x.toFin := by
  simp [fieldX]

@[simp] theorem fieldKk_wordXkk (g x : BitVec 4) (kk : Byte) : fieldKk (wordXkk g x kk) = kk :=
  (extract_inside_low g (x ++ kk : BitVec 12) (by omega)).trans (extract_low x kk)

/-! ## Formats XY, XYS and XYN -/

@[simp] theorem fieldGroup_wordXyn (g x y n : BitVec 4) : fieldGroup (wordXyn g x y n) = g :=
  extract_high g (x ++ (y ++ n : BitVec 8) : BitVec 12)

@[simp] theorem fieldXBits_wordXyn (g x y n : BitVec 4) : fieldXBits (wordXyn g x y n) = x :=
  (extract_inside_low g (x ++ (y ++ n : BitVec 8) : BitVec 12) (by omega)).trans (extract_high x (y ++ n : BitVec 8))

@[simp] theorem fieldYBits_wordXyn (g x y n : BitVec 4) : fieldYBits (wordXyn g x y n) = y :=
  ((extract_inside_low g (x ++ (y ++ n : BitVec 8) : BitVec 12) (by omega)).trans
    (extract_inside_low x (y ++ n : BitVec 8) (by omega))).trans (extract_high y n)

@[simp] theorem fieldNBits_wordXyn (g x y n : BitVec 4) : fieldNBits (wordXyn g x y n) = n :=
  ((extract_inside_low g (x ++ (y ++ n : BitVec 8) : BitVec 12) (by omega)).trans
    (extract_inside_low x (y ++ n : BitVec 8) (by omega))).trans (extract_low y n)

@[simp] theorem fieldX_wordXyn (g x y n : BitVec 4) : fieldX (wordXyn g x y n) = x.toFin := by simp [fieldX]
@[simp] theorem fieldY_wordXyn (g x y n : BitVec 4) : fieldY (wordXyn g x y n) = y.toFin := by simp [fieldY]
@[simp] theorem fieldN_wordXyn (g x y n : BitVec 4) : fieldN (wordXyn g x y n) = n.toFin := by simp [fieldN]

/-! ## A word from its fields -/

theorem split_at {n m k : Nat} (w : BitVec k) (a : Nat) :
    (w.extractLsb' (m + a) n ++ w.extractLsb' a m) = w.extractLsb' a (n + m) := by
  refine BitVec.eq_of_getLsbD_eq fun i hi => ?_
  simp only [BitVec.getLsbD_append, BitVec.getLsbD_extractLsb']
  by_cases hm : i < m
  · simp [hm, hi]
  · simp only [hm, if_false, hi]
    rw [show m + a + (i - m) = a + i by omega]
    simp [show i - m < n by omega]

@[simp] theorem wordNnn_fields (w : Word16) : wordNnn (fieldGroup w) (fieldNnn w) = w :=
  (split_at (n := 4) (m := 12) w 0).trans (by simp)

theorem fieldX_append_fieldKk (w : Word16) : (fieldXBits w ++ fieldKk w : BitVec 12) = fieldNnn w :=
  split_at (n := 4) (m := 8) w 0

theorem fieldY_append_fieldN (w : Word16) : (fieldYBits w ++ fieldNBits w : BitVec 8) = fieldKk w :=
  split_at (n := 4) (m := 4) w 0

@[simp] theorem wordXkk_fields (w : Word16) : wordXkk (fieldGroup w) (fieldXBits w) (fieldKk w) = w := by
  rw [wordXkk, fieldX_append_fieldKk]; exact wordNnn_fields w

@[simp] theorem wordXyn_fields (w : Word16) :
    wordXyn (fieldGroup w) (fieldXBits w) (fieldYBits w) (fieldNBits w) = w := by
  rw [wordXyn, fieldY_append_fieldN]; exact wordXkk_fields w

/-! ## Bytes -/

@[simp] theorem highByte_joinBytes (hi lo : Byte) : highByte (joinBytes hi lo) = hi := extract_high hi lo
@[simp] theorem lowByte_joinBytes (hi lo : Byte) : lowByte (joinBytes hi lo) = lo := extract_low hi lo

@[simp] theorem joinBytes_bytes (w : Word16) : joinBytes (highByte w) (lowByte w) = w :=
  (split_at (n := 8) (m := 8) w 0).trans (by simp)

/-! ## A built word under the masks of the opcode map -/

theorem wordNnn_and (g g' : BitVec 4) (a a' : BitVec 12) :
    wordNnn g a &&& wordNnn g' a' = wordNnn (g &&& g') (a &&& a') := BitVec.and_append

theorem wordXkk_and (g g' x x' : BitVec 4) (k k' : Byte) :
    wordXkk g x k &&& wordXkk g' x' k' = wordXkk (g &&& g') (x &&& x') (k &&& k') :=
  (wordNnn_and g g' (x ++ k) (x' ++ k')).trans (congrArg (wordNnn (g &&& g')) BitVec.and_append)

theorem wordXyn_and (g g' x x' y y' n n' : BitVec 4) :
    wordXyn g x y n &&& wordXyn g' x' y' n' = wordXyn (g &&& g') (x &&& x') (y &&& y') (n &&& n') :=
  (wordXkk_and g g' x x' (y ++ n) (y' ++ n')).trans (congrArg (wordXkk (g &&& g') (x &&& x')) BitVec.and_append)

theorem nibble_and_all (g : BitVec 4) : g &&& 0xF#4 = g := BitVec.and_allOnes (w := 4)
theorem byte_and_all (k : Byte) : k &&& 0xFF#8 = k := BitVec.and_allOnes (w := 8)

theorem wordNnn_group (g : BitVec 4) (a : BitVec 12) : wordNnn g a &&& 0xF000 = wordNnn g 0 := by
  rw [show (0xF000 : Word16) = wordNnn 0xF#4 0#12 from rfl, wordNnn_and, nibble_and_all, BitVec.and_zero]; rfl

theorem wordXkk_group (g x : BitVec 4) (k : Byte) : wordXkk g x k &&& 0xF000 = wordXkk g 0 0 := by
  rw [show (0xF000 : Word16) = wordXkk 0xF#4 0#4 0#8 from rfl, wordXkk_and, nibble_and_all, BitVec.and_zero,
    BitVec.and_zero]; rfl

theorem wordXkk_groupByte (g x : BitVec 4) (k : Byte) : wordXkk g x k &&& 0xF0FF = wordXkk g 0 k := by
  rw [show (0xF0FF : Word16) = wordXkk 0xF#4 0#4 0xFF#8 from rfl, wordXkk_and, nibble_and_all, byte_and_all,
    BitVec.and_zero]; rfl

theorem wordXyn_group (g x y n : BitVec 4) : wordXyn g x y n &&& 0xF000 = wordXyn g 0 0 0 := by
  rw [show (0xF000 : Word16) = wordXyn 0xF#4 0#4 0#4 0#4 from rfl, wordXyn_and, nibble_and_all, BitVec.and_zero,
    BitVec.and_zero, BitVec.and_zero]; rfl

theorem wordXyn_groupNibble (g x y n : BitVec 4) : wordXyn g x y n &&& 0xF00F = wordXyn g 0 0 n := by
  rw [show (0xF00F : Word16) = wordXyn 0xF#4 0#4 0#4 0xF#4 from rfl, wordXyn_and, nibble_and_all, nibble_and_all,
    BitVec.and_zero, BitVec.and_zero]; rfl

/-- The group of a word, read through its mask. -/
theorem and_group (w : Word16) : w &&& 0xF000 = wordXkk (fieldGroup w) 0 0 := by
  conv => lhs; rw [← wordXkk_fields w]
  exact wordXkk_group _ _ _

/-- The group and the low byte of a word, read through their mask. -/
theorem and_groupByte (w : Word16) : w &&& 0xF0FF = wordXkk (fieldGroup w) 0 (fieldKk w) := by
  conv => lhs; rw [← wordXkk_fields w]
  exact wordXkk_groupByte _ _ _

/-- The group and the low nibble of a word, read through their mask. -/
theorem and_groupNibble (w : Word16) : w &&& 0xF00F = wordXyn (fieldGroup w) 0 0 (fieldNBits w) := by
  conv => lhs; rw [← wordXyn_fields w]
  exact wordXyn_groupNibble _ _ _ _

end Sys2Proof
end

