-- ==== Sys2Proof/Laws/Memory.lean ====
section
/-! SUPPORT. What the memory operations do: reads after writes, and that the canonical form is kept. -/

namespace Sys2Proof.Machine

/-! ## One cell -/

theorem lookup_cellFor_append (a : Nat) (v : Byte) (cells : List Host.Cell) (b : Nat)
    (h : v = background a → b = a → Memory.lookup cells a = background a) :
    Memory.lookup (Memory.cellFor a v ++ cells) b = if b = a then v else Memory.lookup cells b := by
  unfold Memory.cellFor
  split
  · next hv =>
    split
    · next hb => subst hb; simpa [hv] using h hv rfl
    · simp
  · simp [Memory.lookup]

/-- An address below every listed one reads as if unlisted. -/
theorem lookup_of_lt {lo : Nat} {cells : List Host.Cell} (h : Memory.wfFrom lo cells) {a : Nat} (ha : a < lo) :
    Memory.lookup cells a = background a := by
  induction cells generalizing lo with
  | nil => rfl
  | cons c rest ih =>
    obtain ⟨b, w⟩ := c
    simp only [Memory.wfFrom, Bool.and_eq_true, decide_eq_true_eq] at h
    have : a ≠ b := by omega
    simp [Memory.lookup, this, ih h.2 (by omega)]

theorem lookup_insert {lo : Nat} {cells : List Host.Cell} (h : Memory.wfFrom lo cells) (a : Nat) (v : Byte) (b : Nat) :
    Memory.lookup (Memory.insert cells a v) b = if b = a then v else Memory.lookup cells b := by
  induction cells generalizing lo with
  | nil => simpa [Memory.insert] using lookup_cellFor_append a v [] b (fun _ _ => rfl)
  | cons c rest ih =>
    obtain ⟨k, w⟩ := c
    have hw := h
    simp only [Memory.wfFrom, Bool.and_eq_true, decide_eq_true_eq] at h
    unfold Memory.insert
    split
    · next hlt =>
      refine lookup_cellFor_append a v _ b (fun _ _ => ?_)
      have : a ≠ k := by omega
      simp [Memory.lookup, this, lookup_of_lt h.2 (show a < k + 1 by omega)]
    · split
      · next _ hk =>
        subst hk
        rw [lookup_cellFor_append a v rest b (fun _ _ => lookup_of_lt h.2 (Nat.lt_succ_self a))]
        split
        · rfl
        · next hb => simp [Memory.lookup, hb]
      · next _ hk =>
        simp only [Memory.lookup, ih h.2]
        split
        · next hb => subst hb; simp [Ne.symm hk]
        · rfl

theorem wfFrom_mono {lo lo' : Nat} {cells : List Host.Cell} (h : Memory.wfFrom lo cells) (hl : lo' ≤ lo) :
    Memory.wfFrom lo' cells := by
  cases cells with
  | nil => rfl
  | cons c rest =>
    simp only [Memory.wfFrom, Bool.and_eq_true, decide_eq_true_eq] at h ⊢
    exact ⟨⟨⟨by omega, h.1.1.2⟩, h.1.2⟩, h.2⟩

theorem wfFrom_cellFor_append {lo a : Nat} (v : Byte) {cells : List Host.Cell} (hlo : lo ≤ a) (ha : a < 4096)
    (h : Memory.wfFrom (a + 1) cells) : Memory.wfFrom lo (Memory.cellFor a v ++ cells) := by
  unfold Memory.cellFor
  split
  · exact wfFrom_mono h (by omega)
  · next hv => simp [Memory.wfFrom, hlo, ha, hv, h]

theorem wfFrom_insert {lo : Nat} {cells : List Host.Cell} (h : Memory.wfFrom lo cells) {a : Nat} (hlo : lo ≤ a)
    (ha : a < 4096) (v : Byte) : Memory.wfFrom lo (Memory.insert cells a v) := by
  induction cells generalizing lo with
  | nil => simpa [Memory.insert] using wfFrom_cellFor_append (cells := []) v hlo ha rfl
  | cons c rest ih =>
    obtain ⟨k, w⟩ := c
    have hk := h
    simp only [Memory.wfFrom, Bool.and_eq_true, decide_eq_true_eq] at hk
    unfold Memory.insert
    split
    · next hlt =>
      refine wfFrom_cellFor_append v hlo ha ?_
      simp only [Memory.wfFrom, Bool.and_eq_true, decide_eq_true_eq]
      exact ⟨⟨⟨by omega, hk.1.1.2⟩, hk.1.2⟩, hk.2⟩
    · split
      · next _ e => subst e; exact wfFrom_cellFor_append v hlo ha hk.2
      · next h1 h2 =>
        simp only [Memory.wfFrom, Bool.and_eq_true, decide_eq_true_eq]
        exact ⟨hk.1, ih hk.2 (by omega)⟩

/-- A read after a write: the value at the written address, the old byte everywhere else (20_memory.md R44). -/
theorem get_set {m : Memory} (h : m.wf) (a : Nat) (v : Byte) (b : Nat) :
    (m.set a v).get b = if b = a then v else m.get b := lookup_insert h a v b

theorem wf_set {m : Memory} (h : m.wf) {a : Nat} (ha : a < 4096) (v : Byte) : (m.set a v).wf :=
  wfFrom_insert h (Nat.zero_le a) ha v

/-! ## Consecutive bytes -/

theorem range_length (m : Memory) (a n : Nat) : (m.range a n).length = n := by
  induction n generalizing a with
  | zero => rfl
  | succ n ih => simp [Memory.range, ih]

theorem range_get (m : Memory) (a n k : Nat) (h : k < n) : (m.range a n)[k]? = some (m.get (a + k)) := by
  induction n generalizing a k with
  | zero => omega
  | succ n ih =>
    cases k with
    | zero => simp [Memory.range]
    | succ k => simp [Memory.range, ih (a + 1) k (by omega), Nat.add_assoc, Nat.add_comm 1]

theorem wf_setRange {m : Memory} (h : m.wf) (bs : List Byte) {a : Nat} (ha : a + bs.length ≤ 4096 ∨ bs = []) :
    (m.setRange a bs).wf := by
  induction bs generalizing m a with
  | nil => exact h
  | cons b bs ih =>
    have ha' : a + (bs.length + 1) ≤ 4096 := by simpa using ha
    exact ih (wf_set h (by omega) b) (.inl (by omega))

/-- After writing consecutive bytes an address reads as its new byte if it is one of theirs, else as before. -/
theorem get_setRange {m : Memory} (h : m.wf) (bs : List Byte) {a : Nat} (ha : a + bs.length ≤ 4096 ∨ bs = [])
    (b : Nat) : (m.setRange a bs).get b = if a ≤ b then bs[b - a]?.getD (m.get b) else m.get b := by
  induction bs generalizing m a with
  | nil => simp [Memory.setRange]
  | cons c bs ih =>
    have ha' : a + (bs.length + 1) ≤ 4096 := by simpa using ha
    rw [Memory.setRange, ih (wf_set h (by omega) c) (.inl (by omega)), get_set h]
    by_cases hb : b = a
    · subst hb; simp
    · by_cases h1 : a + 1 ≤ b
      · have e : b - a = (b - (a + 1)) + 1 := by omega
        simp [hb, h1, show a ≤ b by omega, e]
      · simp [hb, h1, show ¬a ≤ b by omega]

theorem get_setRange_outside {m : Memory} (h : m.wf) (bs : List Byte) {a b : Nat}
    (ha : a + bs.length ≤ 4096 ∨ bs = []) (hb : b < a ∨ a + bs.length ≤ b) : (m.setRange a bs).get b = m.get b := by
  rw [get_setRange h bs ha]
  split
  · rw [List.getElem?_eq_none (by omega)]; rfl
  · rfl

/-! ## Checked accesses (20_memory.md R42 to R44, R51) -/

theorem inBounds_iff (a n : Nat) : inBounds a n = true ↔ n = 0 ∨ a + n ≤ 4096 := by
  simp [inBounds]

theorem loadBytes_ok {m : Memory} {a n : Nat} (h : n = 0 ∨ a + n ≤ 4096) : loadBytes m a n = .ok (m.range a n) := by
  simp [loadBytes, (inBounds_iff a n).2 h]

theorem loadBytes_error {m : Memory} {a n : Nat} (h : ¬(n = 0 ∨ a + n ≤ 4096)) :
    loadBytes m a n = .error (max a 0x1000) := by
  have : inBounds a n = false := by simpa using mt (inBounds_iff a n).1 h
  simp [loadBytes, this, offendingAddress]

theorem storeBytes_ok {m : Memory} {a : Nat} {bs : List Byte} (h : bs.length = 0 ∨ a + bs.length ≤ 4096) :
    storeBytes m a bs = .ok (m.setRange a bs) := by
  simp only [storeBytes, (inBounds_iff a bs.length).2 h, if_true]

theorem storeBytes_error {m : Memory} {a : Nat} {bs : List Byte} (h : ¬(bs.length = 0 ∨ a + bs.length ≤ 4096)) :
    storeBytes m a bs = .error (max a 0x1000) := by
  have : inBounds a bs.length = false := by simpa using mt (inBounds_iff a bs.length).1 h
  simp [storeBytes, this, offendingAddress]

/-- A checked store keeps the canonical form. -/
theorem wf_storeBytes {m m' : Memory} (h : m.wf) {a : Nat} {bs : List Byte} (hs : storeBytes m a bs = .ok m') :
    m'.wf := by
  by_cases hb : bs.length = 0 ∨ a + bs.length ≤ 4096
  · rw [storeBytes_ok hb] at hs
    cases hs
    exact wf_setRange h bs (by simpa [or_comm] using hb)
  · simp [storeBytes_error hb] at hs

theorem fetchWord_ok {m : Memory} {a : Nat} (h : a ≤ 0xFFE) :
    fetchWord m a = .ok (joinBytes (m.get a) (m.get (a + 1))) := by
  have : inBounds a 2 = true := (inBounds_iff a 2).2 (by omega)
  simp [fetchWord, this]

theorem fetchWord_error {m : Memory} {a : Nat} (h : ¬a ≤ 0xFFE) : fetchWord m a = .error (max a 0x1000) := by
  have : inBounds a 2 = false := by simpa using mt (inBounds_iff a 2).1 (by omega)
  simp [fetchWord, this, offendingAddress]

/-- A fetch that succeeds is from an address up to 0xFFE, and reads the two bytes there. -/
theorem fetchWord_eq_ok {m : Memory} {a : Nat} {w : Word16} (h : fetchWord m a = .ok w) :
    a ≤ 0xFFE ∧ w = joinBytes (m.get a) (m.get (a + 1)) := by
  by_cases ha : a ≤ 0xFFE
  · rw [fetchWord_ok ha] at h
    cases h
    exact ⟨ha, rfl⟩
  · simp [fetchWord_error ha] at h

end Sys2Proof.Machine
end

