-- ==== Sys2Proof/Laws/PerInstr.lean ====
section
/-! SUPPORT. Statements about every instruction as syntax, one lemma per constructor. -/

namespace Sys2Proof.Laws

/-! ## EncodesInRow: the word of a well-formed instruction matches its row of the opcode map (30_encoding.md R64) -/

namespace EncodesInRow

def Statement (i : Instr) : Prop :=
  ∀ strict, i.wellFormed strict → i.row.matchesWord strict (encode i) = true

/-- A row whose two masks agree. -/
theorem of_mask {i : Instr} (h : encode i &&& i.row.mask = i.row.value) (hs : i.row.strictMask = i.row.mask) :
    Statement i := by
  intro strict _
  simp [OpcodeRow.matchesWord, hs, h]

/-- A row with ignored bits: they are zero under STRICT_DECODE. -/
theorem of_masks {i : Instr} (h : encode i &&& i.row.mask = i.row.value)
    (hs : i.ignoredBits = 0 → encode i &&& i.row.strictMask = i.row.value) : Statement i := by
  intro strict hw
  cases strict with
  | false => simp [OpcodeRow.matchesWord, h]
  | true =>
    have hd : i.ignoredBits = 0 := by simpa [Instr.wellFormed] using hw
    simp [OpcodeRow.matchesWord, hs hd]

theorem cls (d : BitVec 4) : Statement (.cls d) :=
  of_masks (wordXkk_groupByte _ _ _) fun h => by cases h; rfl

theorem ret (d : BitVec 4) : Statement (.ret d) :=
  of_masks (wordXkk_groupByte _ _ _) fun h => by cases h; rfl

theorem jp (nnn : BitVec 12) : Statement (.jp nnn) := of_mask (wordNnn_group _ _) rfl

theorem call (nnn : BitVec 12) : Statement (.call nnn) := of_mask (wordNnn_group _ _) rfl

theorem seVxKk (x : Reg) (kk : Byte) : Statement (.seVxKk x kk) := of_mask (wordXkk_group _ _ _) rfl

theorem sneVxKk (x : Reg) (kk : Byte) : Statement (.sneVxKk x kk) := of_mask (wordXkk_group _ _ _) rfl

theorem seVxVy (x : Reg) (y : Reg) (d : BitVec 4) : Statement (.seVxVy x y d) :=
  of_masks (wordXyn_group _ _ _ _) fun h => by cases h; exact wordXyn_groupNibble _ _ _ _

theorem ldVxKk (x : Reg) (kk : Byte) : Statement (.ldVxKk x kk) := of_mask (wordXkk_group _ _ _) rfl

theorem addVxKk (x : Reg) (kk : Byte) : Statement (.addVxKk x kk) := of_mask (wordXkk_group _ _ _) rfl

theorem ldVxVy (x : Reg) (y : Reg) : Statement (.ldVxVy x y) := of_mask (wordXyn_groupNibble _ _ _ _) rfl

theorem orVxVy (x : Reg) (y : Reg) : Statement (.orVxVy x y) := of_mask (wordXyn_groupNibble _ _ _ _) rfl

theorem andVxVy (x : Reg) (y : Reg) : Statement (.andVxVy x y) := of_mask (wordXyn_groupNibble _ _ _ _) rfl

theorem xorVxVy (x : Reg) (y : Reg) : Statement (.xorVxVy x y) := of_mask (wordXyn_groupNibble _ _ _ _) rfl

theorem addVxVy (x : Reg) (y : Reg) : Statement (.addVxVy x y) := of_mask (wordXyn_groupNibble _ _ _ _) rfl

theorem subVxVy (x : Reg) (y : Reg) : Statement (.subVxVy x y) := of_mask (wordXyn_groupNibble _ _ _ _) rfl

theorem shrVx (x : Reg) (y : Reg) : Statement (.shrVx x y) := of_mask (wordXyn_groupNibble _ _ _ _) rfl

theorem subnVxVy (x : Reg) (y : Reg) : Statement (.subnVxVy x y) := of_mask (wordXyn_groupNibble _ _ _ _) rfl

theorem shlVx (x : Reg) (y : Reg) : Statement (.shlVx x y) := of_mask (wordXyn_groupNibble _ _ _ _) rfl

theorem sneVxVy (x : Reg) (y : Reg) (d : BitVec 4) : Statement (.sneVxVy x y d) :=
  of_masks (wordXyn_group _ _ _ _) fun h => by cases h; exact wordXyn_groupNibble _ _ _ _

theorem ldIAddr (nnn : BitVec 12) : Statement (.ldIAddr nnn) := of_mask (wordNnn_group _ _) rfl

theorem jpV0Addr (nnn : BitVec 12) : Statement (.jpV0Addr nnn) := of_mask (wordNnn_group _ _) rfl

theorem rndVxKk (x : Reg) (kk : Byte) : Statement (.rndVxKk x kk) := of_mask (wordXkk_group _ _ _) rfl

theorem drw (x : Reg) (y : Reg) (n : Fin 16) : Statement (.drw x y n) := of_mask (wordXyn_group _ _ _ _) rfl

theorem skpVx (x : Reg) : Statement (.skpVx x) := of_mask (wordXkk_groupByte _ _ _) rfl

theorem sknpVx (x : Reg) : Statement (.sknpVx x) := of_mask (wordXkk_groupByte _ _ _) rfl

theorem ldVxDt (x : Reg) : Statement (.ldVxDt x) := of_mask (wordXkk_groupByte _ _ _) rfl

theorem ldVxK (x : Reg) : Statement (.ldVxK x) := of_mask (wordXkk_groupByte _ _ _) rfl

theorem ldDtVx (x : Reg) : Statement (.ldDtVx x) := of_mask (wordXkk_groupByte _ _ _) rfl

theorem ldStVx (x : Reg) : Statement (.ldStVx x) := of_mask (wordXkk_groupByte _ _ _) rfl

theorem addIVx (x : Reg) : Statement (.addIVx x) := of_mask (wordXkk_groupByte _ _ _) rfl

theorem ldFVx (x : Reg) : Statement (.ldFVx x) := of_mask (wordXkk_groupByte _ _ _) rfl

theorem ldBVx (x : Reg) : Statement (.ldBVx x) := of_mask (wordXkk_groupByte _ _ _) rfl

theorem ldMemVx (x : Reg) : Statement (.ldMemVx x) := of_mask (wordXkk_groupByte _ _ _) rfl

theorem ldVxMem (x : Reg) : Statement (.ldVxMem x) := of_mask (wordXkk_groupByte _ _ _) rfl

end EncodesInRow
end Sys2Proof.Laws
end

