-- ==== Sys2Proof/Laws/Registers.lean ====
section
/-! SUPPORT. What the register operations do. -/

namespace Sys2Proof.Machine

@[simp] theorem getV_setV_same (s : State) (x : Reg) (b : Byte) : (s.setV x b).getV x = b := by
  simp [State.getV, State.setV]

theorem getV_setV_other (s : State) {x r : Reg} (b : Byte) (h : r ≠ x) : (s.setV x b).getV r = s.getV r := by
  have : (x : Nat) ≠ r := fun e => h (Fin.ext e.symm)
  simp [State.getV, State.setV, this]

theorem getV_setV (s : State) (x r : Reg) (b : Byte) :
    (s.setV x b).getV r = if r = x then b else s.getV r := by
  split
  · next h => subst h; simp
  · next h => exact getV_setV_other s b h

/-- A register read depends on the register file alone. -/
theorem getV_congr {s t : State} (h : t.v = s.v) (r : Reg) : t.getV r = s.getV r := by
  simp [State.getV, h]

@[simp] theorem getV_advance (s : State) (r : Reg) : s.advance.getV r = s.getV r := rfl
@[simp] theorem getV_skipIf (s : State) (c : Bool) (r : Reg) : (s.skipIf c).getV r = s.getV r := rfl
@[simp] theorem getV_halt (s : State) (e : ErrorRecord) (r : Reg) : (s.halt e).getV r = s.getV r := rfl
@[simp] theorem getV_tick (s : State) (r : Reg) : s.tick.getV r = s.getV r := rfl

/-- The result stays in `V[x]`, also when `x` is VF. -/
@[simp] theorem getV_setFlagThenV_dest (s : State) (f : Byte) (x : Reg) (b : Byte) :
    (s.setFlagThenV f x b).getV x = b := getV_setV_same _ x b

/-- VF holds the flag unless it is the destination. -/
theorem getV_setFlagThenV_vf (s : State) (f : Byte) {x : Reg} (b : Byte) (h : x ≠ vf) :
    (s.setFlagThenV f x b).getV vf = f :=
  (getV_setV_other (s.setV vf f) b (Ne.symm h)).trans (getV_setV_same s vf f)

theorem getV_setFlagThenV_other (s : State) (f : Byte) {x r : Reg} (b : Byte) (hx : r ≠ x) (hf : r ≠ vf) :
    (s.setFlagThenV f x b).getV r = s.getV r :=
  (getV_setV_other (s.setV vf f) b hx).trans (getV_setV_other s f hf)

/-- The registers from `k` on receive the bytes in order; the others keep their values. -/
theorem setRegsFrom_get (bs : List Byte) (k : Nat) (v : Vector Byte 16) (r : Nat) (hr : r < 16) :
    (setRegsFrom k bs v)[r] = if k ≤ r then bs[r - k]?.getD v[r] else v[r] := by
  induction bs generalizing k v with
  | nil => simp [setRegsFrom]
  | cons b bs ih =>
    rw [setRegsFrom, ih]
    by_cases h : k = r
    · subst h; simp
    · by_cases h' : k + 1 ≤ r
      · have e : r - k = (r - (k + 1)) + 1 := by omega
        simp [h', show k ≤ r by omega, e, h]
      · simp [h', show ¬k ≤ r by omega, h]

theorem getV_setRegsFrom (s : State) (bs : List Byte) (r : Reg) :
    ({ s with v := setRegsFrom 0 bs s.v } : State).getV r = bs[(r : Nat)]?.getD (s.getV r) := by
  simp [State.getV, setRegsFrom_get]

/-- Entry `k` of the stored registers is `V[k]`, for `k` up to `x`. -/
theorem regsTo_length (x : Reg) (s : State) : (regsTo x s).length = x + 1 := by
  simp [regsTo]

theorem regsTo_get (x r : Reg) (s : State) (h : r ≤ x) : (regsTo x s)[(r : Nat)]? = some (s.getV r) := by
  have h' : (r : Nat) < x + 1 := Nat.lt_succ_of_le h
  simp [regsTo, State.getV, h']

end Sys2Proof.Machine
end

