-- ==== Sys2Proof/Laws/Stack.lean ====
section
/-! SUPPORT. What push and pop do (10_state.md R21, R22). -/

namespace Sys2Proof.Machine

theorem push_ok {stack : List Word16} (h : stack.length < 16) (a : Word16) : push stack a = .ok (stack ++ [a]) := by
  simp [push, h]

theorem push_error {stack : List Word16} (h : ¬stack.length < 16) (a : Word16) :
    push stack a = .error .stackOverflow := by
  simp [push, h]

/-- A push that succeeds found fewer than 16 entries and appended one. -/
theorem push_eq_ok {stack stack' : List Word16} {a : Word16} (h : push stack a = .ok stack') :
    stack.length < 16 ∧ stack' = stack ++ [a] := by
  by_cases hs : stack.length < 16
  · rw [push_ok hs] at h
    cases h
    exact ⟨hs, rfl⟩
  · simp [push_error hs] at h

@[simp] theorem pop_append (rest : List Word16) (a : Word16) : pop (rest ++ [a]) = .ok (a, rest) := by
  simp [pop]

@[simp] theorem pop_nil : pop [] = .error .stackUnderflow := rfl

/-- A pop that succeeds took the last entry. -/
theorem pop_eq_ok {stack rest : List Word16} {a : Word16} (h : pop stack = .ok (a, rest)) : stack = rest ++ [a] := by
  rcases stack.eq_nil_or_concat with rfl | ⟨l, b, rfl⟩
  · simp at h
  · simpa [eq_comm, and_comm] using h

/-- A pop fails only on the empty stack, and only with underflow. -/
theorem pop_eq_error {stack : List Word16} {k : ErrorKind} (h : pop stack = .error k) :
    stack = [] ∧ k = .stackUnderflow := by
  rcases stack.eq_nil_or_concat with rfl | ⟨l, b, rfl⟩
  · exact ⟨rfl, by simpa [eq_comm] using h⟩
  · simp at h

end Sys2Proof.Machine
end

