-- ==== Sys2Proof/Laws/Step.lean ====
section
/-! SUPPORT. What one Step can do, said once (40_step_cycle.md R80). -/

namespace Sys2Proof.Machine

theorem step_halted {s : State} {err : ErrorRecord} (h : s.status = .halted err) : step s = .next s := by
  simp [step, cycle, h]

theorem step_fetchError {s : State} {a : Nat} (hr : s.status = .running)
    (hf : fetchWord s.mem s.pc.toNat = .error a) : step s = raiseFetch a s := by
  simp [step, cycle, hr, hf]

theorem step_unknown {s : State} {raw : Word16} {e : DecodeError} (hr : s.status = .running)
    (hf : fetchWord s.mem s.pc.toNat = .ok raw) (hd : decodeWord s.params.strictDecode raw = .error e) :
    step s = raiseUnknown raw s := by
  simp [step, cycle, hr, hf, dispatch, hd]

theorem step_decoded {s : State} {raw : Word16} {i : Instr} (hr : s.status = .running)
    (hf : fetchWord s.mem s.pc.toNat = .ok raw) (hd : decodeWord s.params.strictDecode raw = .ok i) :
    step s = finish (exec i s) := by
  simp [step, cycle, hr, hf, dispatch, hd]

/-- The end of a Step whose instruction did not raise. -/
theorem endStep_running {s : State} (h : s.status = .running) : s.endStep = s.tick := by simp [State.endStep, h]

/-- The end of a Step whose instruction raised. -/
theorem endStep_halted {s : State} {err : ErrorRecord} (h : s.status = .halted err) : s.endStep = s := by
  simp [State.endStep, h]

/-- The execute phase of every instruction answers a state: a raise is the state `Halted` (60_exceptions.md R225). -/
theorem exec_answers (i : Instr) (s : State) : ∃ t, exec i s = .next t := by
  cases i <;> simp only [exec, execCls, execJp, execSeVxKk, execSneVxKk, execSeVxVy, execSneVxVy, execJpV0Addr,
    execLdVxKk, execAddVxKk, execLdVxVy, execOrVxVy, execAndVxVy, execXorVxVy, execAddVxVy, execSubVxVy, execShrVx,
    execSubnVxVy, execShlVx, execRndVxKk, execLdIAddr, execAddIVx, execLdFVx, execLdVxDt, execLdDtVx, execLdStVx]
  case ret d => unfold execRet; split <;> exact ⟨_, rfl⟩
  case call nnn => unfold execCall; split <;> exact ⟨_, rfl⟩
  case drw x y n => unfold execDrw; split <;> exact ⟨_, rfl⟩
  case skpVx x => unfold execSkpVx; split <;> exact ⟨_, rfl⟩
  case sknpVx x => unfold execSknpVx; split <;> exact ⟨_, rfl⟩
  case ldVxK x => unfold execLdVxK; split <;> exact ⟨_, rfl⟩
  case ldBVx x => unfold execLdBVx; split <;> exact ⟨_, rfl⟩
  case ldMemVx x => unfold execLdMemVx; split <;> exact ⟨_, rfl⟩
  case ldVxMem x => unfold execLdVxMem; split <;> exact ⟨_, rfl⟩
  all_goals exact ⟨_, rfl⟩

/-- The four ways a Step ends. -/
theorem step_cases {s t : State} (h : step s = .next t) :
    (∃ err, s.status = .halted err ∧ t = s) ∨
    (s.status = .running ∧ ∃ a, fetchWord s.mem s.pc.toNat = .error a ∧
      t = s.halt ⟨.boundsViolation, Config.unfetchedRaw s.draws, s.pc, .address a⟩) ∨
    (s.status = .running ∧ ∃ raw e, fetchWord s.mem s.pc.toNat = .ok raw ∧
      decodeWord s.params.strictDecode raw = .error e ∧ t = s.halt ⟨.unknownOpcode, raw, s.pc, .unused⟩) ∨
    (s.status = .running ∧ ∃ raw i u, fetchWord s.mem s.pc.toNat = .ok raw ∧
      decodeWord s.params.strictDecode raw = .ok i ∧ exec i s = .next u ∧ t = u.endStep) := by
  cases hs : s.status with
  | halted err =>
    rw [step_halted hs] at h
    cases h
    exact .inl ⟨err, rfl, rfl⟩
  | running =>
    refine .inr ?_
    cases hf : fetchWord s.mem s.pc.toNat with
    | error a =>
      rw [step_fetchError hs hf] at h
      cases h
      exact .inl ⟨rfl, a, rfl, rfl⟩
    | ok raw =>
      refine .inr ?_
      cases hd : decodeWord s.params.strictDecode raw with
      | error e =>
        rw [step_unknown hs hf hd] at h
        cases h
        exact .inl ⟨rfl, raw, e, rfl, hd, rfl⟩
      | ok i =>
        obtain ⟨u, hu⟩ := exec_answers i s
        rw [step_decoded hs hf hd, hu] at h
        cases h
        exact .inr ⟨rfl, raw, i, u, rfl, hd, hu, rfl⟩

end Sys2Proof.Machine
end

