-- ==== Sys2Proof/Tests/Slice0.lean ====
section
/-! SUPPORT. Tests. Expected values are the worked vectors of 95_test_vectors.md, named in each comment, or words written
out from the patterns of 30_encoding.md section 3. -/

namespace Sys2Proof.Tests

open Sys2Proof Sys2Proof.Machine

/-! ## Helpers -/

/-- The state an outcome answers, if it is one. -/
def after (o : Result) : Option State :=
  match o with
  | .next t => some t
  | .fault _ => none
  | .refused _ => none

/-- One Step with the word placed at `pc`, the convention of 95_test_vectors.md. -/
def ran (s : State) (w : Nat) : Option State := after (step (s.withFetchWord 16 w))

/-- Reset with some registers set. -/
def withV (l : List (Reg × Byte)) : State := l.foldl (fun s p => s.setV p.1 p.2) State.reset

/-- `s` with bytes stored from an address on. -/
def withMem (s : State) (a : Nat) (bs : List Byte) : State := { s with mem := s.mem.setRange a bs }

/-- `s` with pixels turned on. -/
def withOn (s : State) (l : List (Fin 64 × Fin 32)) : State :=
  { s with pix := l.foldl (fun d p => togglePixel d p.1 p.2) s.pix }

/-- The pixels that are on. -/
def onPixels (s : State) : List (Nat × Nat) :=
  (List.finRange 32).flatMap fun y => ((List.finRange 64).filter fun x => s.pixelAt x y).map fun x => (x.val, y.val)

/-- The record of a halted core. -/
def haltedWith (s : Option State) : Option ErrorRecord := s.bind State.error

/-! ## WellFormed refuses ignored bits under STRICT_DECODE, one check a row (30_encoding.md R66) -/

theorem test_wellFormed_cls : (Instr.cls 1).wellFormed true = false ∧ (Instr.cls 1).wellFormed false = true := by decide
theorem test_wellFormed_ret : (Instr.ret 0xA).wellFormed true = false ∧ (Instr.ret 0).wellFormed true = true := by decide
theorem test_wellFormed_seVxVy : (Instr.seVxVy 1 2 7).wellFormed true = false := by decide
theorem test_wellFormed_sneVxVy : (Instr.sneVxVy 1 2 1).wellFormed true = false := by decide

/-! ## Decoding: words written out from the patterns of R64 (vectors E1 to E34) -/

theorem test_decode_control :
    decodeTableWord 16 0b0000000011101110 = some (.ret 0) ∧
    decodeTableWord 16 0b0001001000110100 = some (.jp 0x234) ∧
    decodeTableWord 16 0b0010101010111100 = some (.call 0xABC) ∧
    decodeTableWord 16 0b0011101001000010 = some (.seVxKk 0xA 0x42) ∧
    decodeTableWord 16 0b0100101001000010 = some (.sneVxKk 0xA 0x42) ∧
    decodeTableWord 16 0b0101101010110000 = some (.seVxVy 0xA 0xB 0) ∧
    decodeTableWord 16 0b1001101010110000 = some (.sneVxVy 0xA 0xB 0) ∧
    decodeTableWord 16 0b1011001100000000 = some (.jpV0Addr 0x300) := by decide

theorem test_decode_alu :
    decodeTableWord 16 0b0110001110101011 = some (.ldVxKk 3 0xAB) ∧
    decodeTableWord 16 0b0111001100000001 = some (.addVxKk 3 0x01) ∧
    decodeTableWord 16 0b1000000100100000 = some (.ldVxVy 1 2) ∧
    decodeTableWord 16 0b1000000100100001 = some (.orVxVy 1 2) ∧
    decodeTableWord 16 0b1000000100100010 = some (.andVxVy 1 2) ∧
    decodeTableWord 16 0b1000000100100011 = some (.xorVxVy 1 2) ∧
    decodeTableWord 16 0b1000000100100100 = some (.addVxVy 1 2) ∧
    decodeTableWord 16 0b1000000100100101 = some (.subVxVy 1 2) ∧
    decodeTableWord 16 0b1000000100100110 = some (.shrVx 1 2) ∧
    decodeTableWord 16 0b1000000100100111 = some (.subnVxVy 1 2) ∧
    decodeTableWord 16 0b1000000100101110 = some (.shlVx 1 2) ∧
    decodeTableWord 16 0b1100000100001111 = some (.rndVxKk 1 0x0F) := by decide

theorem test_decode_index :
    decodeTableWord 16 0b1010000100100011 = some (.ldIAddr 0x123) ∧
    decodeTableWord 16 0b1111000100011110 = some (.addIVx 1) ∧
    decodeTableWord 16 0b1111000100101001 = some (.ldFVx 1) ∧
    decodeTableWord 16 0b1111000100110011 = some (.ldBVx 1) ∧
    decodeTableWord 16 0b1111000101010101 = some (.ldMemVx 1) ∧
    decodeTableWord 16 0b1111000101100101 = some (.ldVxMem 1) := by decide

theorem test_decode_screen :
    decodeTableWord 16 0b0000000011100000 = some (.cls 0) ∧
    decodeTableWord 16 0b1101000100100101 = some (.drw 1 2 5) := by decide

theorem test_decode_keyTimer :
    decodeTableWord 16 0b1110000110011110 = some (.skpVx 1) ∧
    decodeTableWord 16 0b1110000110100001 = some (.sknpVx 1) ∧
    decodeTableWord 16 0b1111000100000111 = some (.ldVxDt 1) ∧
    decodeTableWord 16 0b1111000100001010 = some (.ldVxK 1) ∧
    decodeTableWord 16 0b1111000100010101 = some (.ldDtVx 1) ∧
    decodeTableWord 16 0b1111000100011000 = some (.ldStVx 1) := by decide

/-- The unknown words listed under the vectors E. -/
theorem test_decode_unknown :
    [0x0000, 0x0123, 0x00E1, 0x00FF, 0x8128, 0x8129, 0x812F, 0xE100, 0xE19F, 0xF100, 0xF175, 0xF1FF, 0xFFFF].all
      (fun w => decodeTableWord 16 w == none) = true := by decide

/-- The words whose decoding depends on STRICT_DECODE. -/
theorem test_decode_ignored_bits :
    decodeWord false 0x0AE0 = .ok (.cls 0xA) ∧ decodeWord true 0x0AE0 = .error (.unknown 0x0AE0) ∧
    decodeWord false 0x0AEE = .ok (.ret 0xA) ∧ decodeWord true 0x0AEE = .error (.unknown 0x0AEE) ∧
    decodeWord false 0x5AB7 = .ok (.seVxVy 0xA 0xB 7) ∧ decodeWord true 0x5AB7 = .error (.unknown 0x5AB7) ∧
    decodeWord false 0x9AB1 = .ok (.sneVxVy 0xA 0xB 1) ∧ decodeWord true 0x9AB1 = .error (.unknown 0x9AB1) := by decide

theorem test_decode_bytes :
    decodeBytes false [0x12, 0x34, 0x56] = .ok (.jp 0x234, [0x56]) ∧ decodeBytes false [0x12] = .error .truncated := by
  decide

theorem test_encode :
    encode (.jp 0x234) = 0x1234 ∧ encode (.drw 1 2 5) = 0xD125 ∧ encode (.ldMemVx 0xF) = 0xFF55 ∧
    encode (.shrVx 1 0) = 0x8106 := by decide

/-! ## Control flow (vectors T) -/

theorem test_jp_T2 : (ran State.reset 0x1201).map (·.pc) = some 0x201 := by decide

theorem test_call_T5 : (ran { State.reset with pc := 0x202 } 0x2300).map (fun t => (t.stack, t.sp, t.pc)) =
    some ([0x202], 1, 0x300) := by decide

theorem test_call_T8 : haltedWith (ran { State.reset with stack := List.replicate 16 0x200 } 0x2ABC) =
    some ⟨.stackOverflow, 0x2ABC, 0x200, .unused⟩ := by decide

theorem test_ret_T10 : (ran { State.reset with pc := 0x300, stack := [0x200, 0xFFE] } 0x00EE).map
    (fun t => (t.stack, t.pc)) = some ([0x200], 0x1000) := by decide

theorem test_ret_T7 : haltedWith (ran State.reset 0x00EE) = some ⟨.stackUnderflow, 0x00EE, 0x200, .unused⟩ := by decide

theorem test_seVxKk_T11_T12 : (ran (withV [(0xA, 0x42)]) 0x3A42).map (·.pc) = some 0x204 ∧
    (ran (withV [(0xA, 0x43)]) 0x3A42).map (·.pc) = some 0x202 := by decide

theorem test_sneVxKk_T13_T14 : (ran (withV [(0xA, 0x42)]) 0x4A42).map (·.pc) = some 0x202 ∧
    (ran (withV [(0xA, 0x43)]) 0x4A42).map (·.pc) = some 0x204 := by decide

theorem test_seVxVy_T16_T26 : (ran (withV [(0xA, 7), (0xB, 8)]) 0x5AB0).map (·.pc) = some 0x202 ∧
    (ran (withV [(0xA, 1), (0xB, 1)]) 0x5AB7).map (·.pc) = some 0x204 := by decide

theorem test_sneVxVy_T18_T19 : (ran (withV [(0xA, 7), (0xB, 7)]) 0x9AB0).map (·.pc) = some 0x202 ∧
    (ran (withV [(0xA, 7), (0xB, 8)]) 0x9AB0).map (·.pc) = some 0x204 := by decide

theorem test_jpV0Addr_T22 : (ran (withV [(0, 0xFF)]) 0xBFFF).map (·.pc) = some 0x10FE := by decide

/-- T24: a skip from the last word of memory does not fault in its own Step. -/
theorem test_skip_T24 : (ran { State.reset with pc := 0xFFE } 0x3000).map (fun t => (t.pc, t.status)) =
    some (0x1002, .running) := by decide

/-- T28: an ignored bit under STRICT_DECODE. -/
theorem test_strict_T28 :
    haltedWith (ran { withV [(0xA, 1), (0xB, 2)] with params := ⟨true, .fault⟩ } 0x9AB1) =
    some ⟨.unknownOpcode, 0x9AB1, 0x200, .unused⟩ := by decide

/-! ## Registers and ALU (vectors A and F) -/

theorem test_ldVxKk_A2 : (ran State.reset 0x6F07).map (fun t => (t.getV 0xF, t.pc)) = some (0x07, 0x202) := by decide

theorem test_addVxKk_A3 : (ran (withV [(3, 0xFF), (0xF, 1)]) 0x7301).map (fun t => (t.getV 3, t.getV 0xF)) =
    some (0, 1) := by decide

theorem test_ldVxVy_A6 : (ran (withV [(1, 1), (2, 0x99), (0xF, 1)]) 0x8120).map
    (fun t => (t.getV 1, t.getV 2, t.getV 0xF)) = some (0x99, 0x99, 1) := by decide

theorem test_orVxVy_A7 : (ran (withV [(1, 0xF0), (2, 0x0F), (0xF, 1)]) 0x8121).map
    (fun t => (t.getV 1, t.getV 0xF)) = some (0xFF, 1) := by decide

theorem test_andVxVy_A8 : (ran (withV [(1, 0xF0), (2, 0x3C), (0xF, 1)]) 0x8122).map
    (fun t => (t.getV 1, t.getV 0xF)) = some (0x30, 1) := by decide

theorem test_xorVxVy_A9 : (ran (withV [(1, 0xF0), (2, 0x3C), (0xF, 1)]) 0x8123).map
    (fun t => (t.getV 1, t.getV 0xF)) = some (0xCC, 1) := by decide

theorem test_addVxVy_A12_A13 :
    (ran (withV [(1, 0xFF), (2, 0), (0xF, 1)]) 0x8124).map (fun t => (t.getV 1, t.getV 0xF)) = some (0xFF, 0) ∧
    (ran (withV [(1, 0xFF), (2, 1)]) 0x8124).map (fun t => (t.getV 1, t.getV 0xF)) = some (0, 1) := by decide

theorem test_addVxVy_F1_F3 :
    (ran (withV [(0xF, 0xF0), (1, 0x20)]) 0x8F14).map (·.getV 0xF) = some 0x10 ∧
    (ran (withV [(1, 0xFF), (0xF, 1)]) 0x81F4).map (fun t => (t.getV 1, t.getV 0xF)) = some (0, 1) := by decide

theorem test_subVxVy_A17_A18 :
    (ran (withV [(1, 0x10), (2, 0x10), (0xF, 1)]) 0x8125).map (fun t => (t.getV 1, t.getV 0xF)) = some (0, 0) ∧
    (ran (withV [(1, 1), (2, 0x10), (0xF, 1)]) 0x8125).map (fun t => (t.getV 1, t.getV 0xF)) = some (0xF1, 0) := by
  decide

theorem test_subVxVy_F7_F8 :
    (ran (withV [(0xF, 3), (1, 5)]) 0x8F15).map (·.getV 0xF) = some 0xFE ∧
    (ran (withV [(1, 5), (0xF, 1)]) 0x81F5).map (fun t => (t.getV 1, t.getV 0xF)) = some (4, 1) := by decide

theorem test_shrVx_A23_F15 :
    (ran (withV [(1, 5), (2, 0xAA)]) 0x8126).map (fun t => (t.getV 1, t.getV 2, t.getV 0xF)) = some (2, 0xAA, 1) ∧
    (ran (withV [(0xF, 3)]) 0x8F16).map (·.getV 0xF) = some 1 := by decide

theorem test_subnVxVy_A20_F14 :
    (ran (withV [(1, 1), (2, 0x10)]) 0x8127).map (fun t => (t.getV 1, t.getV 0xF)) = some (0x0F, 1) ∧
    (ran (withV [(1, 1), (0xF, 1)]) 0x81F7).map (fun t => (t.getV 1, t.getV 0xF)) = some (0, 0) := by decide

theorem test_shlVx_A26_F16 :
    (ran (withV [(1, 0x81)]) 0x812E).map (fun t => (t.getV 1, t.getV 0xF)) = some (2, 1) ∧
    (ran (withV [(0xF, 0x81)]) 0x8F0E).map (·.getV 0xF) = some 2 := by decide

/-- A30: under a zero mask every draw gives 0. -/
theorem test_rndVxKk_A30 (s : State) (x : Reg) : after (exec (.rndVxKk x 0) s) =
    some ({ s with draws := s.draws + 1 }.setV x 0).advance := by
  simp [after, exec, execRndVxKk]

/-! ## Index register and memory (vectors M) -/

theorem test_ldIAddr_M2 : (ran State.reset 0xAFFF).map (·.i) = some 0x0FFF := by decide

theorem test_addIVx_M3_M4 :
    (ran { withV [(1, 1)] with i := 0x0FFF } 0xF11E).map (fun t => (t.i, t.getV 0xF)) = some (0x1000, 0) ∧
    (ran { withV [(1, 2)] with i := 0xFFFF } 0xF11E).map (·.i) = some 1 := by decide

theorem test_ldFVx_M9 : (ran (withV [(1, 0xFF)]) 0xF129).map (·.i) = some 0x04FB := by decide

theorem test_ldBVx_M14 : (ran { withV [(1, 109)] with i := 0xFFD } 0xF133).map
    (fun t => (t.mem.range 0xFFD 3, t.i)) = some ([1, 0, 9], 0xFFD) := by decide

theorem test_ldBVx_M17 : haltedWith (ran { withV [(1, 109)] with i := 0xFFFF } 0xF133) =
    some ⟨.boundsViolation, 0xF133, 0x200, .address 0xFFFF⟩ := by decide

theorem test_ldMemVx_M18 : (ran { withV [(0, 0x11), (1, 0x22), (2, 0x33), (3, 0x44)] with i := 0x400 } 0xF255).map
    (fun t => (t.mem.range 0x400 4, t.i, t.pc)) = some ([0x11, 0x22, 0x33, 0], 0x400, 0x202) := by decide

theorem test_ldMemVx_M20 : haltedWith (ran { withV [(0, 0xAB), (1, 0xCD)] with i := 0xFFF } 0xF155) =
    some ⟨.boundsViolation, 0xF155, 0x200, .address 0x1000⟩ := by decide

theorem test_ldVxMem_M23 :
    (ran (withMem { withV [(3, 0x99)] with i := 0x400 } 0x400 [0x11, 0x22, 0x33, 0x44]) 0xF265).map
    (fun t => ((t.v.toList.take 4), t.i)) = some ([0x11, 0x22, 0x33, 0x99], 0x400) := by decide

theorem test_ldVxMem_M25 : haltedWith (ran (withMem { State.reset with i := 0xFFF } 0xFFF [0x77]) 0xF165) =
    some ⟨.boundsViolation, 0xF165, 0x200, .address 0x1000⟩ := by decide

/-! ## Display (vectors D) -/

theorem test_cls_D1 : (ran (withOn (withV [(0xF, 1)]) [(0, 0), (10, 10), (63, 31)]) 0x00E0).map
    (fun t => (onPixels t, t.getV 0xF)) = some ([], 1) := by decide

theorem test_drw_D4 : (ran (withMem { withV [(0, 60)] with i := 0x300 } 0x300 [0xFF]) 0xD011).map
    (fun t => (onPixels t, t.getV 0xF)) =
    some ([(0, 0), (1, 0), (2, 0), (3, 0), (60, 0), (61, 0), (62, 0), (63, 0)], 0) := by decide

theorem test_drw_D10 :
    (ran (withOn (withMem { withV [(0, 5)] with i := 0x300 } 0x300 [0xC0]) [(6, 5)]) 0xD001).map
    (fun t => (onPixels t, t.getV 0xF)) = some ([(5, 5)], 1) := by decide

/-! ## Keypad and timers (vectors K and W) -/

theorem test_skpVx_K1_K5 :
    (ran ((withV [(1, 5)]).setKey 5 true) 0xE19E).map (·.pc) = some 0x204 ∧
    haltedWith (ran ((withV [(1, 0x15)]).setKey 5 true) 0xE19E) =
      some ⟨.keyIndexOutOfRange, 0xE19E, 0x200, .keyValue 0x15⟩ := by decide

theorem test_skpVx_K6_K7 :
    (ran { (withV [(1, 0x15)]).setKey 5 true with params := ⟨false, .mask⟩ } 0xE19E).map (·.pc) = some 0x204 ∧
    (ran { (withV [(1, 0x15)]).setKey 5 true with params := ⟨false, .notHeld⟩ } 0xE19E).map (·.pc) = some 0x202 := by
  decide

theorem test_sknpVx_K3_K4 :
    (ran ((withV [(1, 5)]).setKey 5 true) 0xE1A1).map (·.pc) = some 0x202 ∧
    (ran (withV [(1, 5)]) 0xE1A1).map (·.pc) = some 0x204 := by decide

theorem test_sknpVx_K9 :
    (ran { (withV [(1, 0x15)]).setKey 5 true with params := ⟨false, .notHeld⟩ } 0xE1A1).map (·.pc) = some 0x204 := by
  decide

theorem test_ldVxDt_K12 : (ran { State.reset with dt := 0x2A } 0xF107).map (fun t => (t.getV 1, t.dt)) =
    some (0x2A, 0x29) := by decide

theorem test_ldDtVx_K14_K15 : (ran (withV [(1, 5)]) 0xF115).map (·.dt) = some 4 ∧
    (ran { State.reset with dt := 9 } 0xF115).map (·.dt) = some 0 := by decide

theorem test_ldStVx_K17_K18 : (ran (withV [(1, 1)]) 0xF118).map (fun t => (t.st, t.tone)) = some (0, false) ∧
    (ran (withV [(1, 2)]) 0xF118).map (fun t => (t.st, t.tone)) = some (1, true) := by decide

/-- The state of W1 before its first Step: LD V3,K at 0x200, `DT` = 10. -/
def beforeWait : State := withMem { State.reset with dt := 10 } 0x200 [0xF3, 0x0A]

/-- W1 and K22: the wait is entered, the timers run, `pc` stays. -/
theorem test_ldVxK_W1 : (after (step beforeWait)).map (fun t => (t.wait, t.pc, t.dt)) =
    some (.awaitingKey 3, 0x200, 9) := by decide

/-- W1 and W3: the wait goes on, the first KeyDown resolves it, the second only sets its flag. -/
theorem test_keyDown_W3 :
    (after (runEvents [.step, .step, .keyDown 0xF, .keyDown 1] beforeWait)).map
      (fun t => (t.getV 3, t.pc, t.wait, t.dt)) = some (0x0F, 0x202, .normal, 8) ∧
    (after (runEvents [.step, .keyDown 0xF, .keyDown 1] beforeWait)).map (fun t => (t.key 1, t.key 0xF, t.key 2)) =
      some (true, true, false) := by decide

/-- W2: a KeyUp never resolves a wait. -/
theorem test_keyUp_W2 : (after (runEvents [.keyDown 2, .step, .keyUp 2] beforeWait)).map
    (fun t => (t.wait, t.pc, t.key 2)) = some (.awaitingKey 3, 0x200, false) := by decide

/-! ## Fatal errors (vectors X and H) -/

theorem test_halt_X16 : (ran { State.reset with dt := 5, st := 5 } 0x0000).map (fun t => (t.error, t.dt, t.st, t.tone)) =
    some (some ⟨.unknownOpcode, 0x0000, 0x200, .unused⟩, 5, 5, true) := by decide

/-- X13 and X15, without the unspecified `raw`. -/
theorem test_halt_X13_X15 :
    (haltedWith (after (step { State.reset with pc := 0xFFF }))).map (fun e => (e.kind, e.pc, e.info)) =
      some (.boundsViolation, 0xFFF, .address 0x1000) ∧
    (haltedWith (after (step { State.reset with pc := 0x10FE }))).map (fun e => (e.kind, e.pc, e.info)) =
      some (.boundsViolation, 0x10FE, .address 0x10FE) := by decide

/-- H1: events of a halted core change nothing, and Reset leaves `Halted`. -/
theorem test_halted_H1 :
    after (runEvents [.step, .keyDown 3, .step] State.reset) = after (runEvents [.step] State.reset) ∧
    (after (runEvents [.step, .reset defaultFont []] State.reset)).map (·.status) = some .running := by decide

theorem test_error_codes : [ErrorKind.unknownOpcode, .boundsViolation, .stackOverflow, .stackUnderflow,
    .keyIndexOutOfRange].map ErrorKind.code = [1, 2, 3, 4, 5] := by decide

/-! ## Reset (vectors Z) -/

theorem test_reset_Z1 :
    (after (event (.reset defaultFont [0x12, 0x00]) { State.reset with i := 5, pc := 0x300, dt := 7 })).map
      (fun t => (t.mem.range 0x1FF 4, t.mem.range 0x4B 5, t.i, t.pc, t.dt)) =
    some ([0, 0x12, 0, 0], [0xF0, 0x80, 0xF0, 0x80, 0x80], 0, 0x200, 0) := by decide

theorem test_reset_memory_wf : State.reset.mem.wf = true := by decide

/-- The trace output shows the decoded instruction at `pc`. -/
theorem test_trace : beforeWait.trace.current = some (.ok (.ldVxK 3)) ∧
    ({ State.reset with pc := 0x1000 } : State).trace.current = none := by decide

/-! ## Witnesses: for each statement with hypotheses, states and operands that meet them, at the ends of the ranges -/

theorem witness_DecodeEncodeRoundTrip : (Instr.cls 0).wellFormed true = true ∧
    (Instr.cls 0xF).wellFormed false = true ∧ (Instr.drw 0xF 0xF 0xF).wellFormed true = true := by decide

theorem witness_EncodeDecodeRoundTrip : decodeWord true 0x5AB0 = .ok (.seVxVy 0xA 0xB 0) ∧
    decodeWord false 0x5ABF = .ok (.seVxVy 0xA 0xB 0xF) := by decide

theorem witness_DecoderFollowsOpcodeMap : decodeWord false 0xFF65 = .ok (.ldVxMem 0xF) ∧
    (Instr.ldVxMem 0).row.matchesWord false 0xFF65 = true ∧ (Instr.ldVxMem 3).row.matchesWord false 0xFF65 = true := by
  decide

theorem witness_FetchIsBigEndian : fetchWord State.reset.mem 0x000 = .ok 0xF090 ∧
    fetchWord State.reset.mem 0xFFE = .ok 0x0000 ∧ fetchWord State.reset.mem 0xFFF = .error 0x1000 ∧
    fetchWord State.reset.mem 0x1000 = .error 0x1000 := by decide

theorem witness_Fetches : Fetches (State.reset.withFetchWord 16 0x6A7F) 0x6A7F (.ldVxKk 0xA 0x7F) ∧
    Fetches { State.reset with pc := 0xFFE, mem := State.reset.mem.setWord 0xFFE 0x00EE } 0x00EE (.ret 0) := by
  unfold Fetches; decide

theorem witness_StepRunsTheDecodedInstruction :
    (∃ u, Fetches (State.reset.withFetchWord 16 0x6A7F) 0x6A7F (.ldVxKk 0xA 0x7F) ∧
      exec (.ldVxKk 0xA 0x7F) (State.reset.withFetchWord 16 0x6A7F) = .next u ∧ u.status = .running) ∧
    (∃ u err, Fetches (State.reset.withFetchWord 16 0x00EE) 0x00EE (.ret 0) ∧
      exec (.ret 0) (State.reset.withFetchWord 16 0x00EE) = .next u ∧ u.status = .halted err) := by
  refine ⟨⟨_, ?_, rfl, rfl⟩, ⟨_, _, ?_, rfl, rfl⟩⟩ <;> (unfold Fetches; decide)

/-- A halted core: RET on the empty stack. -/
def haltedState : State := State.reset.halt ⟨.stackUnderflow, 0x00EE, 0x200, .unused⟩

theorem witness_HaltedStepChangesNothing :
    haltedState.status = .halted ⟨.stackUnderflow, 0x00EE, 0x200, .unused⟩ := rfl

theorem witness_FetchOutsideMemoryHalts : State.reset.status = .running ∧
    ({ State.reset with pc := 0xFFF } : State).pc.toNat > 0xFFE ∧
    ({ State.reset with pc := 0x1000 } : State).pc.toNat > 0xFFF := by decide

theorem witness_UnknownOpcodeHalts : State.reset.status = .running ∧
    fetchWord State.reset.mem State.reset.pc.toNat = .ok 0x0000 ∧
    decodeWord State.reset.params.strictDecode 0x0000 = .error (.unknown 0x0000) := by decide

theorem witness_RaisingStepChangesOnlyStatus :
    ∃ t err, step State.reset = .next t ∧ t.status = .halted err := ⟨_, _, rfl, rfl⟩

theorem witness_TimersDecrementOncePerStep :
    (∃ t, Fetches (State.reset.withFetchWord 16 0xFF15) 0xFF15 (.ldDtVx 0xF) ∧
      step (State.reset.withFetchWord 16 0xFF15) = .next t ∧ t.status = .running) ∧
    (∃ t, Fetches (State.reset.withFetchWord 16 0xF018) 0xF018 (.ldStVx 0) ∧
      step (State.reset.withFetchWord 16 0xF018) = .next t ∧ t.status = .running) := by
  refine ⟨⟨_, ?_, rfl, rfl⟩, ⟨_, ?_, rfl, rfl⟩⟩ <;> (unfold Fetches; decide)

/-- For the tone both ways: `V[0]` is 1, `V[F]` is 2. -/
theorem witness_SoundTimerOneNeverSounds :
    Fetches ((withV [(0, 1)]).withFetchWord 16 0xF018) 0xF018 (.ldStVx 0) ∧
    Fetches ((withV [(0xF, 2)]).withFetchWord 16 0xFF18) 0xFF18 (.ldStVx 0xF) := by
  unfold Fetches; decide

theorem beforeWait_inv : beforeWait.Inv := by
  refine ⟨by decide, by decide, ?_, by decide, ?_⟩
  · intro a h; cases h
  · intro t h; cases h

/-- A core awaiting a key for V3 at 0x200. -/
def waiting : State := { beforeWait with wait := .awaitingKey 3 }

theorem witness_AwaitingStepOnlyRunsTimers : waiting.Inv ∧ waiting.wait = .awaitingKey 3 := by
  refine ⟨⟨by decide, by decide, ?_, by decide, ?_⟩, rfl⟩
  · intro a h; cases h
  · intro t h
    cases h
    decide

theorem witness_CallPushesItsAddress : ({ State.reset with stack := List.replicate 15 0x200 } : State).sp < 16 ∧
    ({ State.reset with stack := List.replicate 16 0x200 } : State).sp = 16 := by decide

theorem witness_ReturnPopsAndAddsTwo : ({ State.reset with stack := [0x202] } : State).stack = [] ++ [0x202] ∧
    State.reset.sp = 0 := by decide

theorem witness_CallThenReturn : State.reset.sp < 16 ∧
    ∃ t u : State, exec (.call 0x300) State.reset = .next t ∧ u.stack = t.stack := ⟨by decide, _, _, rfl, rfl⟩

theorem witness_RandomIsMaskedAndDrawsOnce : (∀ x kk, Instr.cls 0 ≠ .rndVxKk x kk) ∧
    ∃ t, exec (.cls 0) State.reset = .next t := ⟨by simp, _, rfl⟩

theorem witness_BcdStoresThreeDigits : State.reset.mem.wf = true ∧
    ({ State.reset with i := 0xFFD } : State).i.toNat + 2 ≤ 0xFFF ∧
    ({ State.reset with i := 0xFFE } : State).i.toNat + 2 > 0xFFF := by decide

theorem witness_StoreRegistersRange : State.reset.mem.wf = true ∧
    ({ State.reset with i := 0xFF0 } : State).i.toNat + (0xF : Reg) ≤ 0xFFF ∧
    ({ State.reset with i := 0xFF1 } : State).i.toNat + (0xF : Reg) > 0xFFF := by decide

theorem witness_LoadRegistersRange : ({ State.reset with i := 0xFFF } : State).i.toNat + (0 : Reg) ≤ 0xFFF ∧
    ({ State.reset with i := 0xFFF } : State).i.toNat + (1 : Reg) > 0xFFF := by decide

theorem witness_StoreIsSeenByFetch : State.reset.mem.wf = true ∧ (1 : Reg) ≤ 1 ∧
    ({ State.reset with i := 0xFFE } : State).i.toNat + (1 : Reg) ≤ 0xFFF ∧
    ∃ t, exec (.ldMemVx 1) { State.reset with i := 0xFFE } = .next t := ⟨by decide, by decide, by decide, _, rfl⟩

/-- A sprite byte at the last address, with its leftmost pixel on: in range with `n = 1`, out of range with `n = 2`, and
no byte at all with `n = 0`. -/
def drawState : State := withOn (withMem { State.reset with i := 0xFFF } 0xFFF [0xC0]) [(0, 0)]

theorem witness_DrawComplementsTargets :
    drawState.i.toNat + (1 : Fin 16) - 1 ≤ 0xFFF ∧ ((0 : Fin 16) : Nat) = 0 ∧
    ((2 : Fin 16) : Nat) > 0 ∧ drawState.i.toNat + (2 : Fin 16) - 1 > 0xFFF ∧
    Targets 0 1 1 drawState 0 0 ∧ drawState.pixelAt 0 0 = true ∧ ¬Targets 0 1 1 drawState 2 0 := by
  refine ⟨by decide, by decide, by decide, by decide, ⟨0, 0, by decide⟩, by decide, ?_⟩
  rintro ⟨row, col, hr, hc, hb, hx, -⟩
  have h0 : row = 0 := by simpa using hr
  subst h0
  have : ∀ col < 8, (drawState.mem.get (drawState.i.toNat + 0)).getLsbD (7 - col) = true →
      (2 : Nat) ≠ ((drawState.getV 0).toNat + col) % 64 := by decide
  exact this col hc hb hx

/-- No targeted pixel is on: the clear display. -/
theorem witness_DrawComplementsTargets_clear :
    ¬∃ px py, Targets 0 1 1 State.reset px py ∧ State.reset.pixelAt px py = true := by
  rintro ⟨px, py, -, h⟩
  simp [State.pixelAt, pixel, State.reset] at h

theorem witness_DrawTwiceRestores : (0 : Reg) ≠ vf ∧ drawState.i.toNat + (1 : Fin 16) - 1 ≤ 0xFFF ∧
    ∃ t, exec (.drw 0 0 1) drawState = .next t := ⟨by decide, by decide, _, rfl⟩

theorem witness_KeySkips : ((withV [(1, 0xF)]).getV 1).toNat = (0xF : Key) ∧
    ((withV []).getV 1).toNat = (0 : Key) ∧ ((withV [(1, 0x10)]).getV 1).toNat > 0xF ∧
    ∀ p : KeyIndexPolicy, ({ withV [(1, 0x10)] with params := ⟨false, p⟩ } : State).params.keyIndexPolicy = p :=
  ⟨by decide, by decide, by decide, fun _ => rfl⟩

theorem witness_KeyWaitEntersOrContinues : State.reset.wait = .normal ∧ waiting.wait = .awaitingKey 3 := by decide

theorem witness_KeyDownResolvesWait : (State.reset.status = .running ∧ State.reset.wait = .normal) ∧
    (waiting.status = .running ∧ waiting.wait = .awaitingKey 3) ∧ (∃ err, haltedState.status = .halted err) :=
  ⟨⟨rfl, rfl⟩, ⟨rfl, rfl⟩, _, rfl⟩

theorem witness_KeyUpOnlyClearsFlag : waiting.status = .running ∧ (∃ err, haltedState.status = .halted err) :=
  ⟨rfl, _, rfl⟩

theorem witness_OnlyKeyWaitEntersAwaiting : Fetches beforeWait 0xF30A (.ldVxK 3) ∧ beforeWait.wait = .normal ∧
    (∃ t, step beforeWait = .next t) ∧ (∀ x, Instr.ldVxKk 0xA 0x7F ≠ .ldVxK x) := by
  refine ⟨?_, rfl, ⟨_, rfl⟩, by simp⟩
  unfold Fetches; decide

theorem witness_ResetReinitialisesEverything : (List.replicate 3584 (0x12 : Byte)).length ≤ 3584 ∧
    ([] : List Byte).length ≤ 3584 :=
  ⟨by rw [List.length_replicate], by decide⟩

theorem witness_OversizeImageIsRefused : (List.replicate 3585 (0x12 : Byte)).length > 3584 := by
  rw [List.length_replicate]; omega

theorem witness_OnlyResetLeavesHalted : (∃ err, haltedState.status = .halted err) ∧
    (∀ font rom, Event.keyDown 3 ≠ .reset font rom) ∧ ∃ t, event (.keyDown 3) haltedState = .next t :=
  ⟨⟨_, rfl⟩, by simp, _, rfl⟩

theorem witness_StepKeepsInvariant : beforeWait.Inv ∧ ∃ t, step beforeWait = .next t := ⟨beforeWait_inv, _, rfl⟩

theorem witness_EventKeepsInvariant : (waiting.Inv ∧ ∃ t, event (.keyDown 5) waiting = .next t) ∧
    ∃ t, event (.reset defaultFont [0x12, 0x00]) haltedState = .next t :=
  ⟨⟨witness_AwaitingStepOnlyRunsTimers.1, _, rfl⟩, _, rfl⟩

theorem witness_StepRaisesExactlyAsListed : beforeWait.status = .running ∧ beforeWait.sp ≤ 16 ∧
    Fetches beforeWait 0xF30A (.ldVxK 3) ∧
    fetchWord State.reset.mem State.reset.pc.toNat = .ok 0x0000 ∧
    (∀ i : Instr, i.row.matchesWord false 0x0000 = false) ∧
    ({ State.reset with pc := 0xFFF } : State).pc.toNat > 0xFFE := by
  refine ⟨by decide, by decide, ?_, by decide, fun i => by cases i <;> simp [Instr.row, OpcodeRow.matchesWord], by decide⟩
  unfold Fetches; decide

theorem witness_OnlyListedInstructionsRaise : State.reset.status = .running ∧ State.reset.sp ≤ 16 ∧
    expectedError (.ret 0) State.reset = some .stackUnderflow ∧ expectedError (.cls 0) State.reset = none := by decide

theorem witness_OnlyNamedInstructionsWriteEachPart :
    ∃ t, exec (.ldBVx 1) { withV [(1, 200)] with i := 0x300 } = .next t := ⟨_, rfl⟩

theorem witness_RegistersChangeOnlyAsDestinations :
    ∃ t, exec (.ldVxKk 1 5) State.reset = .next t ∧ t.getV 1 ≠ State.reset.getV 1 := ⟨_, rfl, by decide⟩

end Sys2Proof.Tests
end

section
/-! PROOFS. Control flow (41_control_flow.md): the two jumps and the four skips that compare registers. -/

namespace Sys2Proof.Machine

/-! ## Frames of the operations that write `pc` alone -/

/-- A new `pc` is the whole effect of a control transfer (R100). -/
theorem setPc_frame (s : State) (a : Word16) : Frame [.pc] [] s { s with pc := a } where
  mem _ _ := rfl
  v _ _ := rfl
  i _ := rfl
  pc h := absurd (List.mem_singleton_self _) h
  stack _ := rfl
  dt _ := rfl
  st _ := rfl
  pix _ := rfl
  keys _ := rfl
  wait _ := rfl
  status _ := rfl
  params _ := rfl
  draws _ := rfl

theorem skipIf_frame (s : State) (c : Bool) : Frame [.pc] [] s (s.skipIf c) := setPc_frame s _

/-! ## Jump targets -/

@[simp] theorem address_toNat (nnn : BitVec 12) : (address nnn).toNat = nnn.toNat :=
  BitVec.toNat_setWidth_of_le (by decide)

/-- 12 bits plus 8 bits stay far below the 16 bits of `pc`, so the sum is the plain one (R110). -/
theorem indexedTarget_toNat (nnn : BitVec 12) (s : State) :
    (indexedTarget nnn s).toNat = nnn.toNat + (s.getV 0).toNat := by
  have hoffset : ((s.getV 0).setWidth 16).toNat = (s.getV 0).toNat := BitVec.toNat_setWidth_of_le (by decide)
  have hsum : nnn.toNat + (s.getV 0).toNat < 2 ^ 16 := by omega
  rw [indexedTarget, BitVec.toNat_add, address_toNat, hoffset, Nat.mod_eq_of_lt hsum]

/-! ## Meanings -/

theorem exec_jp (nnn : BitVec 12) (s : State) : exec (.jp nnn) s = .next { s with pc := address nnn } := rfl

theorem exec_jpV0Addr (nnn : BitVec 12) (s : State) :
    exec (.jpV0Addr nnn) s = .next { s with pc := indexedTarget nnn s } := rfl

theorem exec_seVxKk (x : Reg) (kk : Byte) (s : State) :
    exec (.seVxKk x kk) s = .next (s.skipIf (s.getV x == kk)) := rfl

theorem exec_sneVxKk (x : Reg) (kk : Byte) (s : State) :
    exec (.sneVxKk x kk) s = .next (s.skipIf (s.getV x != kk)) := rfl

theorem exec_seVxVy (x y : Reg) (d : BitVec 4) (s : State) :
    exec (.seVxVy x y d) s = .next (s.skipIf (s.getV x == s.getV y)) := rfl

theorem exec_sneVxVy (x y : Reg) (d : BitVec 4) (s : State) :
    exec (.sneVxVy x y d) s = .next (s.skipIf (s.getV x != s.getV y)) := rfl

/-- An instruction that answers `skipIf` of a test is a skip on what the test decides (R111). -/
theorem skipsWhen_of_exec {i : Instr} {s : State} {test : Bool} {c : Prop}
    (hexec : exec i s = .next (s.skipIf test)) (htest : test = true ↔ c) : SkipsWhen i c s := by
  refine ⟨s.skipIf test, hexec, fun hc => ?_, fun hc => ?_, skipIf_frame s test⟩
  · have : test = true := htest.mpr hc
    simp [this]
  · have : test ≠ true := mt htest.mp hc
    simp [this]

end Sys2Proof.Machine

namespace Sys2Proof.Proofs

open Sys2Proof.Machine

/-- Settles O16: the only write is `pc`, and a 12-bit address keeps its value in 16 bits. -/
theorem jumpSetsPc : Obligations.JumpSetsPc := fun nnn s =>
  ⟨_, exec_jp nnn s, address_toNat nnn, setPc_frame s _⟩

/-- Settles O17: the only write is `pc`, and the sum fits in 16 bits. -/
theorem indexedJumpSetsPc : Obligations.IndexedJumpSetsPc := fun nnn s =>
  ⟨_, exec_jpV0Addr nnn s, indexedTarget_toNat nnn s, setPc_frame s _⟩

/-- Settles O21: both forms are `skipIf` of the comparison. -/
theorem skipsOnImmediate : Obligations.SkipsOnImmediate := fun x kk s =>
  ⟨skipsWhen_of_exec (exec_seVxKk x kk s) beq_iff_eq, skipsWhen_of_exec (exec_sneVxKk x kk s) bne_iff_ne⟩

/-- Settles O22: both forms are `skipIf` of the comparison, and no arm reads the ignored bits. -/
theorem skipsOnRegisters : Obligations.SkipsOnRegisters := fun x y d s =>
  ⟨skipsWhen_of_exec (exec_seVxVy x y d s) beq_iff_eq, skipsWhen_of_exec (exec_sneVxVy x y d s) bne_iff_ne⟩

end Sys2Proof.Proofs
end

section
/-! PROOFS. Register load and logic (42_register_alu.md): the instructions that write one register and no flag. -/

namespace Sys2Proof.Machine

/-! ## The write of one register -/

/-- Writing `V[x]` and advancing leaves everything but `V[x]` and `pc` as it was; VF is one of the registers kept unless
it is `V[x]`. -/
theorem setV_advance_frame (s : State) (x : Reg) (b : Byte) : Frame [.pc] [x] s (s.setV x b).advance where
  mem _ _ := rfl
  v r h := by
    rw [getV_advance]
    exact getV_setV_other s b (List.ne_of_not_mem_cons h)
  i _ := rfl
  pc h := absurd (List.mem_singleton_self _) h
  stack _ := rfl
  dt _ := rfl
  st _ := rfl
  pix _ := rfl
  keys _ := rfl
  wait _ := rfl
  status _ := rfl
  params _ := rfl
  draws _ := rfl

/-- An instruction that answers `V[x] <- b` and the next `pc` loads `b`. -/
theorem loadsV_of_exec {i : Instr} {s : State} {x : Reg} {b : Byte} (hexec : exec i s = .next (s.setV x b).advance) :
    LoadsV i x b s :=
  ⟨(s.setV x b).advance, hexec, getV_setV_same s x b, rfl, setV_advance_frame s x b⟩

/-! ## 8-bit addition -/

/-- The `+` of bytes is the sum of their values modulo 256 (R121). -/
theorem byte_ofNat_sum_mod (a b : Byte) : BitVec.ofNat 8 ((a.toNat + b.toNat) % 256) = a + b :=
  BitVec.eq_of_toNat_eq (by simp)

/-! ## Meanings -/

theorem exec_ldVxKk (x : Reg) (kk : Byte) (s : State) : exec (.ldVxKk x kk) s = .next (s.setV x kk).advance := rfl

theorem exec_addVxKk (x : Reg) (kk : Byte) (s : State) :
    exec (.addVxKk x kk) s = .next (s.setV x (s.getV x + kk)).advance := rfl

theorem exec_ldVxVy (x y : Reg) (s : State) : exec (.ldVxVy x y) s = .next (s.setV x (s.getV y)).advance := rfl

theorem exec_orVxVy (x y : Reg) (s : State) :
    exec (.orVxVy x y) s = .next (s.setV x (s.getV x ||| s.getV y)).advance := rfl

theorem exec_andVxVy (x y : Reg) (s : State) :
    exec (.andVxVy x y) s = .next (s.setV x (s.getV x &&& s.getV y)).advance := rfl

theorem exec_xorVxVy (x y : Reg) (s : State) :
    exec (.xorVxVy x y) s = .next (s.setV x (s.getV x ^^^ s.getV y)).advance := rfl

end Sys2Proof.Machine

namespace Sys2Proof.Proofs

open Sys2Proof.Machine

/-- Settles O23: both forms write `V[x]` alone, and the sum on bytes is the sum modulo 256. -/
theorem immediateForms : Obligations.ImmediateForms := fun x kk s =>
  ⟨loadsV_of_exec (exec_ldVxKk x kk s), by
    rw [byte_ofNat_sum_mod]
    exact loadsV_of_exec (exec_addVxKk x kk s)⟩

/-- Settles O24: the four forms differ only in the byte they write to `V[x]`. -/
theorem copyAndLogicForms : Obligations.CopyAndLogicForms := fun x y s =>
  ⟨loadsV_of_exec (exec_ldVxVy x y s), loadsV_of_exec (exec_orVxVy x y s), loadsV_of_exec (exec_andVxVy x y s),
    loadsV_of_exec (exec_xorVxVy x y s)⟩

end Sys2Proof.Proofs
end

section
/-! PROOFS. Index register (43_index_and_memory.md): the three instructions that write `I` and touch no memory. -/

namespace Sys2Proof.Machine

/-! ## The write of `I` -/

/-- Writing `I` and advancing leaves everything but `I` and `pc` as it was, VF among it. -/
theorem setI_advance_frame (s : State) (a : Word16) : Frame [.pc, .i] [] s { s with i := a }.advance where
  mem _ _ := rfl
  v _ _ := rfl
  i h := absurd (by decide) h
  pc h := absurd (by decide) h
  stack _ := rfl
  dt _ := rfl
  st _ := rfl
  pix _ := rfl
  keys _ := rfl
  wait _ := rfl
  status _ := rfl
  params _ := rfl
  draws _ := rfl

/-- An instruction that answers `I <- a` and the next `pc` sets `I` to the number `n` that `a` stands for, and writes
nothing else. -/
theorem setsI_of_exec {i : Instr} {s : State} {a : Word16} {n : Nat} (hexec : exec i s = .next { s with i := a }.advance)
    (hvalue : a.toNat = n) :
    ∃ t, exec i s = .next t ∧ t.i.toNat = n ∧ t.pc = s.pc + 2 ∧ Frame [.pc, .i] [] s t :=
  ⟨_, hexec, hvalue, rfl, setI_advance_frame s a⟩

/-! ## Values of `I` -/

/-- The sum of `I` and a byte wraps at 65536 only (R152). -/
theorem add_byte_toNat (a : Word16) (b : Byte) : (a + b.setWidth 16).toNat = (a.toNat + b.toNat) % 65536 := by
  have hbyte : (b.setWidth 16).toNat = b.toNat := BitVec.toNat_setWidth_of_le (by decide)
  rw [BitVec.toNat_add, hbyte]

/-- Five times a byte is at most 1275, so the unmasked product fits in `I` (R154). -/
theorem glyphAddress_toNat (b : Byte) : (glyphAddress b).toNat = b.toNat * 5 := by
  have hfits : b.toNat * 5 < 2 ^ 16 := by omega
  rw [glyphAddress, BitVec.toNat_ofNat, Nat.mod_eq_of_lt hfits]

/-! ## Meanings -/

theorem exec_ldIAddr (nnn : BitVec 12) (s : State) :
    exec (.ldIAddr nnn) s = .next { s with i := address nnn }.advance := rfl

theorem exec_addIVx (x : Reg) (s : State) :
    exec (.addIVx x) s = .next { s with i := s.i + (s.getV x).setWidth 16 }.advance := rfl

theorem exec_ldFVx (x : Reg) (s : State) :
    exec (.ldFVx x) s = .next { s with i := glyphAddress (s.getV x) }.advance := rfl

end Sys2Proof.Machine

namespace Sys2Proof.Proofs

open Sys2Proof.Machine

/-- Settles O29: the three forms differ only in the value they write to `I`. -/
theorem indexRegisterForms : Obligations.IndexRegisterForms :=
  ⟨fun nnn s => setsI_of_exec (exec_ldIAddr nnn s) (address_toNat nnn),
    fun x s => setsI_of_exec (exec_addIVx x s) (add_byte_toNat s.i (s.getV x)),
    fun x s => setsI_of_exec (exec_ldFVx x s) (glyphAddress_toNat (s.getV x))⟩

end Sys2Proof.Proofs
end

section
/-! PROOFS. Display (44_display.md): the clear instruction. -/

namespace Sys2Proof.Machine

/-! ## The write of the display -/

/-- Writing the display and advancing leaves everything but the pixels and `pc` as it was. -/
theorem setPix_advance_frame (s : State) (d : Display) : Frame [.pc, .pix] [] s { s with pix := d }.advance where
  mem _ _ := rfl
  v _ _ := rfl
  i _ := rfl
  pc h := absurd (by decide) h
  stack _ := rfl
  dt _ := rfl
  st _ := rfl
  pix h := absurd (by decide) h
  keys _ := rfl
  wait _ := rfl
  status _ := rfl
  params _ := rfl
  draws _ := rfl

/-! ## Meanings -/

theorem exec_cls (d : BitVec 4) (s : State) : exec (.cls d) s = .next { s with pix := clearDisplay }.advance := rfl

end Sys2Proof.Machine

namespace Sys2Proof.Proofs

open Sys2Proof.Machine

/-- Settles O34: the display written is the clear one, whose pixels are all off, and no arm reads the ignored bits. -/
theorem clearScreen : Obligations.ClearScreen := fun d s =>
  ⟨_, exec_cls d s, pixel_clearDisplay, State.advance_pc _, setPix_advance_frame s clearDisplay⟩

end Sys2Proof.Proofs
end

section
/-! PROOFS. Keypad and timers (45_keypad_and_timers.md): the three moves of a timer and the key wait. -/

namespace Sys2Proof.Machine

/-! ## Frames of the writes of a timer and of the wait state -/

/-- Leaving the state as it is keeps every part; a frame of a few writes takes the other parts from here. -/
theorem Frame.refl (may : List Part) (regs : List Reg) (s : State) : Frame may regs s s where
  mem _ _ := rfl
  v _ _ := rfl
  i _ := rfl
  pc _ := rfl
  stack _ := rfl
  dt _ := rfl
  st _ := rfl
  pix _ := rfl
  keys _ := rfl
  wait _ := rfl
  status _ := rfl
  params _ := rfl
  draws _ := rfl

theorem setDt_advance_frame (s : State) (b : Byte) : Frame [.pc, .dt] [] s { s with dt := b }.advance :=
  { Frame.refl [.pc, .dt] [] s with
    pc := fun h => absurd (by decide) h
    dt := fun h => absurd (by decide) h }

theorem setSt_advance_frame (s : State) (b : Byte) : Frame [.pc, .st] [] s { s with st := b }.advance :=
  { Frame.refl [.pc, .st] [] s with
    pc := fun h => absurd (by decide) h
    st := fun h => absurd (by decide) h }

/-- A new wait state is the whole effect of entering the wait: `pc` is among the parts kept (R196). -/
theorem setWait_frame (s : State) (w : WaitState) : Frame [.wait] [] s { s with wait := w } :=
  { Frame.refl [.wait] [] s with wait := fun h => absurd (by decide) h }

/-! ## Meanings -/

theorem exec_ldVxDt (x : Reg) (s : State) : exec (.ldVxDt x) s = .next (s.setV x s.dt).advance := rfl

theorem exec_ldDtVx (x : Reg) (s : State) : exec (.ldDtVx x) s = .next { s with dt := s.getV x }.advance := rfl

theorem exec_ldStVx (x : Reg) (s : State) : exec (.ldStVx x) s = .next { s with st := s.getV x }.advance := rfl

theorem exec_ldVxK_of_normal (x : Reg) {s : State} (hwait : s.wait = .normal) :
    exec (.ldVxK x) s = .next { s with wait := .awaitingKey x } := by
  simp [exec, execLdVxK, hwait]

theorem exec_ldVxK_of_awaitingKey (x : Reg) {s : State} {r : Reg} (hwait : s.wait = .awaitingKey r) :
    exec (.ldVxK x) s = .next s := by
  simp [exec, execLdVxK, hwait]

end Sys2Proof.Machine

namespace Sys2Proof.Proofs

open Sys2Proof.Machine

/-- Settles O38: the byte loaded is `DT` of the state the execute phase starts from. -/
theorem readDelayTimer : Obligations.ReadDelayTimer := fun x s => loadsV_of_exec (exec_ldVxDt x s)

/-- Settles O39: each form writes its timer and `pc` alone. -/
theorem loadTimers : Obligations.LoadTimers := fun x s =>
  ⟨⟨_, exec_ldDtVx x s, rfl, State.advance_pc _, setDt_advance_frame s _⟩,
    ⟨_, exec_ldStVx x s, rfl, State.advance_pc _, setSt_advance_frame s _⟩⟩

/-- Settles O40: in `Normal` the only write is the wait state; in `AwaitingKey` there is none. -/
theorem keyWaitEntersOrContinues : Obligations.KeyWaitEntersOrContinues := fun x s =>
  ⟨fun hwait => ⟨_, exec_ldVxK_of_normal x hwait, rfl, setWait_frame s _⟩,
    fun _ hwait => exec_ldVxK_of_awaitingKey x hwait⟩

end Sys2Proof.Proofs
end

section
/-! PROOFS. The decoder and the encoder (30_encoding.md): the round trips, the opcode map and the unknown words. -/

namespace Sys2Proof

/-! ## Ignored bits (R66) -/

theorem wellFormed_iff {strict : Bool} {i : Instr} :
    i.wellFormed strict = true ↔ (strict = true → i.ignoredBits = 0) := by
  cases strict <;> simp [Instr.wellFormed]

theorem ignoring_eq_ok {strict : Bool} {raw : Word16} {d : BitVec 4} {i j : Instr} :
    ignoring strict raw d i = .ok j ↔ (strict = true → d = 0) ∧ i = j := by
  unfold ignoring
  cases strict <;> split <;> simp_all

theorem ignoring_eq_unknown {strict : Bool} {raw : Word16} {d : BitVec 4} {i : Instr} :
    ignoring strict raw d i = .error (.unknown raw) ↔ strict = true ∧ d ≠ 0 := by
  unfold ignoring
  split <;> simp_all

/-! ## The word of an instruction decodes to it -/

theorem decodeWord_encode {strict : Bool} {i : Instr} (hwf : i.wellFormed strict = true) :
    decodeWord strict (encode i) = .ok i := by
  cases i
  case cls | ret | seVxVy | sneVxVy =>
    simpa [decodeWord, decodeGroup0, encode, Instr.ignoredBits]
      using ignoring_eq_ok.mpr ⟨wellFormed_iff.mp hwf, rfl⟩
  all_goals simp [decodeWord, decodeGroup8, decodeGroupE, decodeGroupF, encode]

/-! ## A word from its fields, one of which is known -/

theorem wordNnn_of_group {w : Word16} {g : BitVec 4} (hg : fieldGroup w = g) : wordNnn g (fieldNnn w) = w :=
  hg ▸ wordNnn_fields w

theorem wordXkk_of_group {w : Word16} {g : BitVec 4} (hg : fieldGroup w = g) :
    wordXkk g (fieldXBits w) (fieldKk w) = w := hg ▸ wordXkk_fields w

theorem wordXkk_of_groupByte {w : Word16} {g : BitVec 4} {kk : Byte} (hg : fieldGroup w = g) (hk : fieldKk w = kk) :
    wordXkk g (fieldXBits w) kk = w := hk ▸ wordXkk_of_group hg

theorem wordXyn_of_group {w : Word16} {g : BitVec 4} (hg : fieldGroup w = g) :
    wordXyn g (fieldXBits w) (fieldYBits w) (fieldNBits w) = w := hg ▸ wordXyn_fields w

theorem wordXyn_of_groupNibble {w : Word16} {g n : BitVec 4} (hg : fieldGroup w = g) (hn : fieldNBits w = n) :
    wordXyn g (fieldXBits w) (fieldYBits w) n = w := hn ▸ wordXyn_of_group hg

/-! ## A decoded instruction -/

/-- `i` is a well-formed instruction of the word `raw`. -/
def IsInstrOf (strict : Bool) (raw : Word16) (i : Instr) : Prop := encode i = raw ∧ i.wellFormed strict = true

theorem isInstrOf_of_ignoring {strict : Bool} {raw : Word16} {d : BitVec 4} {i j : Instr}
    (h : ignoring strict raw d i = .ok j) (hd : i.ignoredBits = d) (hword : encode i = raw) :
    IsInstrOf strict raw j := by
  obtain ⟨hzero, rfl⟩ := ignoring_eq_ok.mp h
  exact ⟨hword, wellFormed_iff.mpr (hd ▸ hzero)⟩

theorem isInstrOf_of_ok {strict : Bool} {raw : Word16} {i j : Instr} (h : (.ok i : Except DecodeError Instr) = .ok j)
    (hd : i.ignoredBits = 0) (hword : encode i = raw) : IsInstrOf strict raw j := by
  cases h
  exact ⟨hword, wellFormed_iff.mpr fun _ => hd⟩

theorem isInstrOf_of_decodeGroup0 {strict : Bool} {raw : Word16} {i : Instr} (hg : fieldGroup raw = 0x0)
    (h : decodeGroup0 strict raw = .ok i) : IsInstrOf strict raw i := by
  unfold decodeGroup0 at h
  split at h
  · next hk => exact isInstrOf_of_ignoring h rfl (wordXkk_of_groupByte hg (BitVec.eq_of_toNat_eq hk))
  · next hk => exact isInstrOf_of_ignoring h rfl (wordXkk_of_groupByte hg (BitVec.eq_of_toNat_eq hk))
  · cases h

theorem isInstrOf_of_decodeGroup8 {strict : Bool} {raw : Word16} {i : Instr} (hg : fieldGroup raw = 0x8)
    (h : decodeGroup8 raw = .ok i) : IsInstrOf strict raw i := by
  unfold decodeGroup8 at h
  split at h
  case h_10 => cases h
  all_goals
    next hn => exact isInstrOf_of_ok h rfl (wordXyn_of_groupNibble hg (BitVec.eq_of_toNat_eq hn))

theorem isInstrOf_of_decodeGroupE {strict : Bool} {raw : Word16} {i : Instr} (hg : fieldGroup raw = 0xE)
    (h : decodeGroupE raw = .ok i) : IsInstrOf strict raw i := by
  unfold decodeGroupE at h
  split at h
  case h_3 => cases h
  all_goals
    next hk => exact isInstrOf_of_ok h rfl (wordXkk_of_groupByte hg (BitVec.eq_of_toNat_eq hk))

theorem isInstrOf_of_decodeGroupF {strict : Bool} {raw : Word16} {i : Instr} (hg : fieldGroup raw = 0xF)
    (h : decodeGroupF raw = .ok i) : IsInstrOf strict raw i := by
  unfold decodeGroupF at h
  split at h
  case h_10 => cases h
  all_goals
    next hk => exact isInstrOf_of_ok h rfl (wordXkk_of_groupByte hg (BitVec.eq_of_toNat_eq hk))

theorem isInstrOf_of_decodeWord {strict : Bool} {raw : Word16} {i : Instr} (h : decodeWord strict raw = .ok i) :
    IsInstrOf strict raw i := by
  unfold decodeWord at h
  split at h
  case h_1 hg => exact isInstrOf_of_decodeGroup0 (BitVec.eq_of_toNat_eq hg) h
  case h_2 hg | h_3 hg | h_11 hg | h_12 hg => exact isInstrOf_of_ok h rfl (wordNnn_of_group (BitVec.eq_of_toNat_eq hg))
  case h_4 hg | h_5 hg | h_7 hg | h_8 hg | h_13 hg =>
    exact isInstrOf_of_ok h rfl (wordXkk_of_group (BitVec.eq_of_toNat_eq hg))
  case h_6 hg | h_10 hg => exact isInstrOf_of_ignoring h rfl (wordXyn_of_group (BitVec.eq_of_toNat_eq hg))
  case h_9 hg => exact isInstrOf_of_decodeGroup8 (BitVec.eq_of_toNat_eq hg) h
  case h_14 hg => exact isInstrOf_of_ok h rfl (wordXyn_of_group (BitVec.eq_of_toNat_eq hg))
  case h_15 hg => exact isInstrOf_of_decodeGroupE (BitVec.eq_of_toNat_eq hg) h
  case h_16 =>
    have hg : fieldGroup raw = 0xF := BitVec.eq_of_toNat_eq (by simp only [imp_false] at *; change _ = 15; omega)
    exact isInstrOf_of_decodeGroupF hg h

/-! ## The unknown words (R67) -/

theorem fieldX_eq_zero (w : Word16) : fieldX w = 0 ↔ fieldXBits w = 0 := by
  rw [fieldX, Fin.ext_iff, ← BitVec.toNat_inj]; rfl

theorem fieldN_eq_zero (w : Word16) : fieldN w = 0 ↔ fieldNBits w = 0 := by
  rw [fieldN, Fin.ext_iff, ← BitVec.toNat_inj]; rfl

theorem decodeGroup0_eq_unknown {strict : Bool} {raw : Word16} : decodeGroup0 strict raw = .error (.unknown raw) ↔
    (fieldKk raw ≠ 0xE0 ∧ fieldKk raw ≠ 0xEE) ∨
      (strict = true ∧ fieldX raw ≠ 0 ∧ (fieldKk raw = 0xE0 ∨ fieldKk raw = 0xEE)) := by
  simp only [ne_eq, fieldX_eq_zero, ← BitVec.toNat_inj (x := fieldKk raw)]
  unfold decodeGroup0
  split <;> simp_all [ignoring_eq_unknown]

theorem decodeGroup8_eq_unknown {raw : Word16} : decodeGroup8 raw = .error (.unknown raw) ↔
    (fieldN raw : Nat) ∈ [0x8, 0x9, 0xA, 0xB, 0xC, 0xD, 0xF] := by
  change _ ↔ (fieldNBits raw).toNat ∈ _
  unfold decodeGroup8
  split
  case h_10 =>
    simp only [true_iff, List.mem_cons, List.not_mem_nil, or_false, imp_false] at *
    omega
  all_goals simp_all

theorem decodeGroupE_eq_unknown {raw : Word16} : decodeGroupE raw = .error (.unknown raw) ↔
    fieldKk raw ≠ 0x9E ∧ fieldKk raw ≠ 0xA1 := by
  simp only [ne_eq, ← BitVec.toNat_inj]
  unfold decodeGroupE
  split <;> simp_all

theorem decodeGroupF_eq_unknown {raw : Word16} : decodeGroupF raw = .error (.unknown raw) ↔
    fieldKk raw ∉ ([0x07, 0x0A, 0x15, 0x18, 0x1E, 0x29, 0x33, 0x55, 0x65] : List Byte) := by
  simp only [List.mem_cons, List.not_mem_nil, or_false, ← BitVec.toNat_inj]
  unfold decodeGroupF
  split <;> simp_all

/-! ## The opcode map (R64) -/

open Laws.EncodesInRow in
/-- The word of a well-formed instruction matches its row. -/
theorem matchesWord_encode (i : Instr) : Statement i := by
  cases i
  exacts [cls _, ret _, jp _, call _, seVxKk _ _, sneVxKk _ _, seVxVy _ _ _, ldVxKk _ _, addVxKk _ _, ldVxVy _ _,
    orVxVy _ _, andVxVy _ _, xorVxVy _ _, addVxVy _ _, subVxVy _ _, shrVx _ _, subnVxVy _ _, shlVx _ _, sneVxVy _ _ _,
    ldIAddr _, jpV0Addr _, rndVxKk _ _, drw _ _ _, skpVx _, sknpVx _, ldVxDt _, ldVxK _, ldDtVx _, ldStVx _, addIVx _,
    ldFVx _, ldBVx _, ldMemVx _, ldVxMem _]

theorem matchesWord_false_iff {i : Instr} {raw : Word16} :
    i.row.matchesWord false raw = true ↔ raw &&& i.row.mask = i.row.value := by
  simp [OpcodeRow.matchesWord]

theorem matchesWord_true_iff {i : Instr} {raw : Word16} :
    i.row.matchesWord true raw = true ↔ raw &&& i.row.strictMask = i.row.value := by
  simp [OpcodeRow.matchesWord]

/-- The strict mask of a row covers its mask, so a word that matches under either setting agrees with the word of the
row's instruction in the bits of the mask (R66). -/
theorem and_mask_of_matchesWord {strict : Bool} {raw : Word16} {i : Instr} (h : i.row.matchesWord strict raw = true) :
    raw &&& i.row.mask = encode i &&& i.row.mask := by
  have hi : encode i &&& i.row.mask = i.row.value := matchesWord_false_iff.mp (matchesWord_encode i false rfl)
  rw [hi]
  cases strict with
  | false => exact matchesWord_false_iff.mp h
  | true =>
    have hmask : i.row.strictMask &&& i.row.mask = i.row.mask := by cases i <;> dsimp only [Instr.row] <;> rfl
    have hvalue : i.row.value &&& i.row.mask = i.row.value := by cases i <;> dsimp only [Instr.row] <;> rfl
    rw [← hmask, ← BitVec.and_assoc, matchesWord_true_iff.mp h, hvalue]

theorem fieldGroup_of_mask {w w' : Word16} (h : w &&& 0xF000 = w' &&& 0xF000) : fieldGroup w = fieldGroup w' := by
  rw [and_group, and_group] at h
  simpa using congrArg fieldGroup h

theorem groupByte_of_mask {w w' : Word16} (h : w &&& 0xF0FF = w' &&& 0xF0FF) :
    fieldGroup w = fieldGroup w' ∧ fieldKk w = fieldKk w' := by
  rw [and_groupByte, and_groupByte] at h
  exact ⟨by simpa using congrArg fieldGroup h, by simpa using congrArg fieldKk h⟩

theorem fieldNBits_and (w : Word16) : fieldNBits (w &&& 0xF00F) = fieldNBits w := by
  rw [and_groupNibble]
  simp

theorem groupNibble_of_mask {w w' : Word16} (h : w &&& 0xF00F = w' &&& 0xF00F) :
    fieldGroup w = fieldGroup w' ∧ fieldNBits w = fieldNBits w' := by
  refine ⟨?_, by rw [← fieldNBits_and w, h, fieldNBits_and]⟩
  rw [and_groupNibble, and_groupNibble] at h
  simpa using congrArg fieldGroup h

theorem decodeWord_of_matchesWord {strict : Bool} {raw : Word16} {i : Instr} (h : i.row.matchesWord strict raw = true) :
    ∃ j, decodeWord strict raw = .ok j ∧ j.row = i.row := by
  have hmask := and_mask_of_matchesWord h
  cases i
  case jp | call | seVxKk | sneVxKk | ldVxKk | addVxKk | ldIAddr | jpV0Addr | rndVxKk | drw =>
    simp [decodeWord, fieldGroup_of_mask hmask, encode, Instr.row]
  case ldVxVy | orVxVy | andVxVy | xorVxVy | addVxVy | subVxVy | shrVx | subnVxVy | shlVx =>
    obtain ⟨hg, hn⟩ := groupNibble_of_mask hmask
    simp [decodeWord, decodeGroup8, hg, hn, encode, Instr.row]
  case skpVx | sknpVx | ldVxDt | ldVxK | ldDtVx | ldStVx | addIVx | ldFVx | ldBVx | ldMemVx | ldVxMem =>
    obtain ⟨hg, hk⟩ := groupByte_of_mask hmask
    simp [decodeWord, decodeGroupE, decodeGroupF, hg, hk, encode, Instr.row]
  case cls | ret =>
    obtain ⟨hg, hk⟩ := groupByte_of_mask hmask
    have hx : strict = true → fieldXBits raw = 0 := by
      rintro rfl
      have hraw := BitVec.and_allOnes.symm.trans (matchesWord_true_iff.mp h)
      dsimp only [Instr.row] at hraw
      exact hraw ▸ rfl
    simp [decodeWord, decodeGroup0, hg, hk, encode, Instr.row, ignoring_eq_ok.mpr ⟨hx, rfl⟩]
  case seVxVy | sneVxVy =>
    have hn : strict = true → fieldNBits raw = 0 := by
      rintro rfl
      have hraw := matchesWord_true_iff.mp h
      dsimp only [Instr.row] at hraw
      rw [← fieldNBits_and, hraw]
      rfl
    simp [decodeWord, fieldGroup_of_mask hmask, encode, Instr.row, ignoring_eq_ok.mpr ⟨hn, rfl⟩]

/-- The word of an instruction that a decode answers matches its row. -/
theorem matchesWord_of_decodeWord {strict : Bool} {raw : Word16} {i : Instr} (h : decodeWord strict raw = .ok i) :
    i.row.matchesWord strict raw = true := by
  obtain ⟨rfl, hwf⟩ := isInstrOf_of_decodeWord h
  exact matchesWord_encode i strict hwf

theorem row_eq_of_matchesWord {strict : Bool} {raw : Word16} {i j : Instr} (hi : i.row.matchesWord strict raw = true)
    (hj : j.row.matchesWord strict raw = true) : i.row = j.row := by
  obtain ⟨k, hk, hki⟩ := decodeWord_of_matchesWord hi
  obtain ⟨l, hl, hlj⟩ := decodeWord_of_matchesWord hj
  cases hk.symm.trans hl
  exact hki.symm.trans hlj

end Sys2Proof

namespace Sys2Proof.Proofs

/-- Settles O2: each format gives back the fields it was built from, and the dispatch finds the row they name. -/
theorem decodeEncodeRoundTrip : Obligations.DecodeEncodeRoundTrip := fun _ _ hwf => decodeWord_encode hwf

/-- Settles O3: every arm of the dispatch fixes the fields its row fixes and keeps the others in the instruction. -/
theorem encodeDecodeRoundTrip : Obligations.EncodeDecodeRoundTrip := fun _ _ _ h => isInstrOf_of_decodeWord h

/-- Settles O4: a match fixes the fields the dispatch looks at, and the decoder answers one instruction only, so the
rows are disjoint. -/
theorem decoderFollowsOpcodeMap : Obligations.DecoderFollowsOpcodeMap := fun _ _ =>
  ⟨fun _ h => matchesWord_of_decodeWord h, fun _ h => decodeWord_of_matchesWord h,
    fun _ _ hi hj => row_eq_of_matchesWord hi hj⟩

/-- Settles O5: only groups 0x0, 0x8, 0xE and 0xF have a secondary dispatch with a default, and only four rows have
ignored bits. -/
theorem unknownWordsAreThoseListed : Obligations.UnknownWordsAreThoseListed := by
  intro strict raw
  simp only [← BitVec.toNat_inj (x := fieldGroup raw)]
  unfold decodeWord
  split
  case h_1 hg => simp [hg, decodeGroup0_eq_unknown]
  case h_6 hg | h_10 hg => simp [hg, ignoring_eq_unknown, fieldN_eq_zero]
  case h_9 hg => simp [hg, decodeGroup8_eq_unknown]
  case h_15 hg => simp [hg, decodeGroupE_eq_unknown]
  case h_16 =>
    have hg : (fieldGroup raw).toNat = 0xF := by simp only [imp_false] at *; omega
    simp [hg, decodeGroupF_eq_unknown]
  all_goals next hg => simp [hg]

/-- Settles O1 by evaluating the decoder on the ten words. -/
theorem tableWordsDecode : Obligations.TableWordsDecode := by
  unfold Obligations.TableWordsDecode
  decide

end Sys2Proof.Proofs
end

section
/-! PROOFS. Control flow (41_control_flow.md): CALL and RET. -/

namespace Sys2Proof.Machine

/-! ## Meanings -/

theorem exec_call_of_lt (nnn : BitVec 12) {s : State} (h : s.sp < 16) :
    exec (.call nnn) s = .next { s with stack := s.stack ++ [s.pc], pc := address nnn } := by
  simp [exec, execCall, push_ok h]

theorem exec_call_of_full (nnn : BitVec 12) {s : State} (h : ¬s.sp < 16) :
    exec (.call nnn) s = raise (.call nnn) .stackOverflow .unused s := by
  simp [exec, execCall, push_error h]

theorem exec_ret_of_append (d : BitVec 4) {s : State} {rest : List Word16} {a : Word16} (h : s.stack = rest ++ [a]) :
    exec (.ret d) s = .next { s with stack := rest, pc := a + 2 } := by
  simp [exec, execRet, h]

theorem exec_ret_of_nil (d : BitVec 4) {s : State} (h : s.stack = []) :
    exec (.ret d) s = raise (.ret d) .stackUnderflow .unused s := by
  simp [exec, execRet, h]

/-! ## Frame -/

theorem setStackPc_frame (s : State) (stack : List Word16) (a : Word16) :
    Frame [.pc, .stack] [] s { s with stack := stack, pc := a } :=
  { Frame.refl [.pc, .stack] [] s with
    pc := fun h => absurd (by decide) h
    stack := fun h => absurd (by decide) h }

end Sys2Proof.Machine

namespace Sys2Proof.Proofs

open Sys2Proof.Machine

/-- Settles O18: depth 16 is the one case in which the push fails. -/
theorem callPushesItsAddress : Obligations.CallPushesItsAddress := fun nnn s =>
  ⟨fun h => ⟨_, exec_call_of_lt nnn h, rfl, List.length_append, address_toNat nnn, setStackPc_frame s _ _⟩,
    fun h => exec_call_of_full nnn (by omega)⟩

/-- Settles O19: the empty stack is the one case in which the pop fails. -/
theorem returnPopsAndAddsTwo : Obligations.ReturnPopsAndAddsTwo := fun d s =>
  ⟨fun rest a h => ⟨_, exec_ret_of_append d h, rfl, by simp [State.sp, h], rfl, setStackPc_frame s _ _⟩,
    fun h => exec_ret_of_nil d (List.length_eq_zero_iff.mp h)⟩

/-- Settles O20: the RET pops the entry that the CALL appended. -/
theorem callThenReturn : Obligations.CallThenReturn := fun nnn d _ h =>
  ⟨_, exec_call_of_lt nnn h, fun _ hu => ⟨_, exec_ret_of_append d hu, rfl, rfl⟩⟩

end Sys2Proof.Proofs
end

section
/-! PROOFS. Arithmetic with a flag, and the random load (42_register_alu.md). -/

namespace Sys2Proof.Machine

/-! ## The write of a flag and a result -/

theorem setFlagThenV_advance_frame (s : State) (f : Byte) (x : Reg) (b : Byte) :
    Frame [.pc] [x, vf] s (s.setFlagThenV f x b).advance :=
  { Frame.refl [.pc] [x, vf] s with
    v := fun r h => by
      obtain ⟨hx, hf⟩ : r ≠ x ∧ r ≠ vf := by simpa using h
      exact getV_setFlagThenV_other s f b hx hf
    pc := fun h => absurd (by decide) h }

/-- An instruction that answers the flag write, the result write and the next `pc` loads both, the result winning in VF
(R141). -/
theorem loadsVAndFlag_of_exec {i : Instr} {s : State} {x : Reg} {b f : Byte}
    (hexec : exec i s = .next (s.setFlagThenV f x b).advance) : LoadsVAndFlag i x b f s :=
  ⟨_, hexec, getV_setFlagThenV_dest s f x b, getV_setFlagThenV_vf s f b, rfl, setFlagThenV_advance_frame s f x b⟩

theorem setDraws_setV_advance_frame (s : State) (x : Reg) (b : Byte) :
    Frame [.pc, .draws] [x] s ({ s with draws := s.draws + 1 }.setV x b).advance :=
  { Frame.refl [.pc, .draws] [x] s with
    v := fun r h => getV_setV_other _ b (List.ne_of_not_mem_cons h)
    pc := fun h => absurd (by decide) h
    draws := fun h => absurd (by decide) h }

/-! ## Values -/

/-- The `-` of bytes is the difference of their values modulo 256 (R140). -/
theorem byte_ofInt_sub (a b : Byte) : BitVec.ofInt 8 ((a.toNat : Int) - b.toNat) = a - b :=
  BitVec.eq_of_toNat_eq (by simp [BitVec.toNat_ofInt, BitVec.toNat_sub]; omega)

theorem byte_ofNat_half (a : Byte) : BitVec.ofNat 8 (a.toNat / 2) = a >>> 1 :=
  BitVec.eq_of_toNat_eq (by simp [Nat.shiftRight_eq_div_pow]; omega)

theorem byte_ofNat_double (a : Byte) : BitVec.ofNat 8 (a.toNat * 2 % 256) = a <<< 1 :=
  BitVec.eq_of_toNat_eq (by simp [Nat.shiftLeft_eq])

theorem flag_eq_ofNat (c : Bool) : flag c = BitVec.ofNat 8 c.toNat := by cases c <;> rfl

theorem lowBitFlag_eq (a : Byte) : lowBitFlag a = BitVec.ofNat 8 (a.toNat % 2) := by
  rw [lowBitFlag, flag_eq_ofNat, BitVec.getLsbD, Nat.toNat_testBit, Nat.pow_zero, Nat.div_one]

theorem highBitFlag_eq (a : Byte) : highBitFlag a = BitVec.ofNat 8 (a.toNat / 128) := by
  have hbit : a.toNat / 128 < 2 := by omega
  rw [highBitFlag, flag_eq_ofNat, BitVec.getLsbD, Nat.toNat_testBit, Nat.mod_eq_of_lt hbit]

/-! ## Meanings -/

theorem exec_addVxVy (x y : Reg) (s : State) : exec (.addVxVy x y) s =
    .next (s.setFlagThenV (carryFlag (s.getV x) (s.getV y)) x (s.getV x + s.getV y)).advance := rfl

theorem exec_subVxVy (x y : Reg) (s : State) : exec (.subVxVy x y) s =
    .next (s.setFlagThenV (greaterFlag (s.getV x) (s.getV y)) x (s.getV x - s.getV y)).advance := rfl

theorem exec_shrVx (x y : Reg) (s : State) : exec (.shrVx x y) s =
    .next (s.setFlagThenV (lowBitFlag (s.getV x)) x (s.getV x >>> 1)).advance := rfl

theorem exec_subnVxVy (x y : Reg) (s : State) : exec (.subnVxVy x y) s =
    .next (s.setFlagThenV (greaterFlag (s.getV y) (s.getV x)) x (s.getV y - s.getV x)).advance := rfl

theorem exec_shlVx (x y : Reg) (s : State) : exec (.shlVx x y) s =
    .next (s.setFlagThenV (highBitFlag (s.getV x)) x (s.getV x <<< 1)).advance := rfl

theorem exec_rndVxKk (x : Reg) (kk : Byte) (s : State) : exec (.rndVxKk x kk) s =
    .next ({ s with draws := s.draws + 1 }.setV x (Config.randomByte s.draws &&& kk)).advance := rfl

end Sys2Proof.Machine

namespace Sys2Proof.Proofs

open Sys2Proof.Machine

/-- Settles O25: the flag is written first, so the sum stays in VF. -/
theorem addWritesSumAndCarry : Obligations.AddWritesSumAndCarry := fun x y s => by
  rw [byte_ofNat_sum_mod]
  refine loadsVAndFlag_of_exec ((exec_addVxVy x y s).trans ?_)
  simp [carryFlag, flag]

/-- Settles O26: SUBN is SUB with the operands exchanged. -/
theorem subtractWritesDifferenceAndFlag : Obligations.SubtractWritesDifferenceAndFlag := fun x y s => by
  rw [byte_ofInt_sub, byte_ofInt_sub]
  refine ⟨loadsVAndFlag_of_exec ((exec_subVxVy x y s).trans ?_),
    loadsVAndFlag_of_exec ((exec_subnVxVy x y s).trans ?_)⟩
  all_goals simp [greaterFlag, flag]

/-- Settles O27: no arm reads `y`, and the bit shifted out is the remainder or the quotient of the shift. -/
theorem shiftsWriteResultAndBitOut : Obligations.ShiftsWriteResultAndBitOut := fun x y s => by
  rw [byte_ofNat_half, byte_ofNat_double, ← lowBitFlag_eq, ← highBitFlag_eq]
  exact ⟨loadsVAndFlag_of_exec (exec_shrVx x y s), loadsVAndFlag_of_exec (exec_shlVx x y s)⟩

end Sys2Proof.Proofs
end

section
/-! PROOFS. Memory accesses through `I` (43_index_and_memory.md): the two stores and the load of registers. -/

namespace Sys2Proof.Machine

/-! ## Frames -/

theorem setMem_advance_frame (s : State) (m : Memory) : Frame [.pc, .mem] [] s { s with mem := m }.advance :=
  { Frame.refl [.pc, .mem] [] s with
    mem := fun h => absurd (by decide) h
    pc := fun h => absurd (by decide) h }

theorem setRegs_advance_frame (s : State) (v : Vector Byte 16) :
    Frame [.pc] (List.finRange 16) s { s with v := v }.advance :=
  { Frame.refl [.pc] (List.finRange 16) s with
    v := fun r h => absurd (List.mem_finRange r) h
    pc := fun h => absurd (by decide) h }

/-! ## Meanings -/

theorem exec_ldBVx_of_le {x : Reg} {s : State} (h : s.i.toNat + 2 ≤ 0xFFF) : exec (.ldBVx x) s =
    .next { s with mem := s.mem.setRange s.i.toNat (bcdDigits (s.getV x)) }.advance := by
  rw [exec, execLdBVx, storeBytes_ok (by simp only [bcdDigits, dataBase, List.length_cons, List.length_nil]; omega)]
  rfl

theorem exec_ldBVx_of_gt {x : Reg} {s : State} (h : s.i.toNat + 2 > 0xFFF) : exec (.ldBVx x) s =
    raise (.ldBVx x) .boundsViolation (.address (max s.i.toNat 0x1000)) s := by
  rw [exec, execLdBVx, storeBytes_error (by simp only [bcdDigits, dataBase, List.length_cons]; omega)]
  rfl

theorem exec_ldMemVx_of_le {x : Reg} {s : State} (h : s.i.toNat + x ≤ 0xFFF) : exec (.ldMemVx x) s =
    .next { s with mem := s.mem.setRange s.i.toNat (regsTo x s) }.advance := by
  rw [exec, execLdMemVx, storeBytes_ok (by rw [regsTo_length, dataBase]; omega)]
  rfl

theorem exec_ldMemVx_of_gt {x : Reg} {s : State} (h : s.i.toNat + x > 0xFFF) : exec (.ldMemVx x) s =
    raise (.ldMemVx x) .boundsViolation (.address (max s.i.toNat 0x1000)) s := by
  rw [exec, execLdMemVx, storeBytes_error (by rw [regsTo_length, dataBase]; omega)]
  rfl

theorem exec_ldVxMem_of_le {x : Reg} {s : State} (h : s.i.toNat + x ≤ 0xFFF) : exec (.ldVxMem x) s =
    .next { s with v := setRegsFrom 0 (s.mem.range s.i.toNat (x + 1)) s.v }.advance := by
  rw [exec, execLdVxMem, loadBytes_ok (by rw [dataBase]; omega)]
  rfl

theorem exec_ldVxMem_of_gt {x : Reg} {s : State} (h : s.i.toNat + x > 0xFFF) : exec (.ldVxMem x) s =
    raise (.ldVxMem x) .boundsViolation (.address (max s.i.toNat 0x1000)) s := by
  rw [exec, execLdVxMem, loadBytes_error (by rw [dataBase]; omega)]
  rfl

/-! ## Bytes stored and loaded -/

/-- A byte of a stored block reads back from its place. -/
theorem get_setRange_at {m : Memory} (h : m.wf) {bs : List Byte} {a k : Nat} {b : Byte} (ha : a + bs.length ≤ 4096)
    (hk : bs[k]? = some b) : (m.setRange a bs).get (a + k) = b := by
  rw [get_setRange h bs (.inl ha), if_pos (Nat.le_add_right a k), Nat.add_sub_cancel_left, hk]
  rfl

/-- The registers up to `x` stored from `I` on read back there. -/
theorem get_setRange_regsTo {x r : Reg} {s : State} (hwf : s.mem.wf) (hx : s.i.toNat + x ≤ 0xFFF) (hr : r ≤ x) :
    (s.mem.setRange s.i.toNat (regsTo x s)).get (s.i.toNat + r) = s.getV r :=
  get_setRange_at hwf (by rw [regsTo_length]; omega) (regsTo_get x r s hr)

end Sys2Proof.Machine

namespace Sys2Proof.Proofs

open Sys2Proof.Machine

/-- Settles O30: the three digits are below 10, so they keep their values as bytes. -/
theorem bcdStoresThreeDigits : Obligations.BcdStoresThreeDigits := by
  refine fun x s => ⟨fun hwf hi => ⟨_, exec_ldBVx_of_le hi, ?_⟩, exec_ldBVx_of_gt⟩
  have hfits : s.i.toNat + (bcdDigits (s.getV x)).length ≤ 4096 := show s.i.toNat + 3 ≤ 4096 by omega
  have hdigit {k n : Nat} (hk : (bcdDigits (s.getV x))[k]? = some (BitVec.ofNat 8 n)) (hn : n < 256) :
      ((s.mem.setRange s.i.toNat (bcdDigits (s.getV x))).get (s.i.toNat + k)).toNat = n := by
    rw [get_setRange_at hwf hfits hk, BitVec.toNat_ofNat, Nat.mod_eq_of_lt hn]
  refine ⟨hdigit (k := 0) rfl (by omega), hdigit rfl (by omega), hdigit rfl (by omega), ?_, rfl,
    setMem_advance_frame s _⟩
  rintro a rfl b hb
  exact get_setRange_outside hwf _ (.inl hfits) hb

/-- Settles O31: entry `r` of the block stored at `I` is `V[r]`, and the block ends at `I + x`. -/
theorem storeRegistersRange : Obligations.StoreRegistersRange := by
  refine fun x s => ⟨fun hwf hi => ⟨_, exec_ldMemVx_of_le hi, ?_⟩, exec_ldMemVx_of_gt⟩
  refine ⟨fun r hr => get_setRange_regsTo hwf hi hr, ?_, rfl, setMem_advance_frame s _⟩
  rintro a rfl b hb
  have hlen := regsTo_length x s
  exact get_setRange_outside hwf _ (.inl (by rw [hlen]; omega)) (by rwa [hlen])

/-- Settles O32: entry `r` of the block loaded from `I` goes to `V[r]`, and the block has no entry past `x`. -/
theorem loadRegistersRange : Obligations.LoadRegistersRange := by
  refine fun x s => ⟨fun hi => ⟨_, exec_ldVxMem_of_le hi, ?_⟩, exec_ldVxMem_of_gt⟩
  refine ⟨fun r hr => ?_, fun r hr => ?_, rfl, setRegs_advance_frame s _⟩
  · rw [getV_advance, getV_setRegsFrom, range_get _ _ _ _ (Nat.lt_succ_of_le hr), Option.getD_some]
  · have hlen : (s.mem.range s.i.toNat (x + 1)).length ≤ r := by rw [range_length]; exact hr
    rw [getV_advance, getV_setRegsFrom, List.getElem?_eq_none hlen, Option.getD_none]

/-- Settles O33: the pair at `I` and `I + 1` is the first two entries of the block stored. -/
theorem storeIsSeenByFetch : Obligations.StoreIsSeenByFetch := by
  intro x s t hwf hx hi hexec
  rw [exec_ldMemVx_of_le hi] at hexec
  cases hexec
  have h0 := get_setRange_regsTo (r := 0) hwf hi (Fin.zero_le x)
  have h1 := get_setRange_regsTo (r := 1) hwf hi hx
  have hx : 1 ≤ (x : Nat) := hx
  rw [fetchWord_ok (by omega)]
  exact congrArg₂ (fun high low => Except.ok (joinBytes high low)) h0 h1

end Sys2Proof.Proofs
end

section
/-! PROOFS. Display (44_display.md): the drawing instruction. -/

namespace Sys2Proof.Machine

/-! ## Meanings -/

/-- The display after the drawing loop of DRW Vx,Vy,n in `s`, and its report of a pixel that was on. -/
def State.drawn (s : State) (x y : Reg) (n : Fin 16) : Display × Bool :=
  drawSprite (s.getV x).toNat (s.getV y).toNat (s.mem.range s.i.toNat n) s.pix

theorem exec_drw_of_le {x y : Reg} {n : Fin 16} {s : State} (h : (n : Nat) = 0 ∨ s.i.toNat + n - 1 ≤ 0xFFF) :
    exec (.drw x y n) s =
      .next ({ s with pix := (s.drawn x y n).1 }.setV vf (flag (s.drawn x y n).2)).advance := by
  rw [exec, execDrw, loadBytes_ok (by rw [dataBase]; omega)]
  rfl

theorem exec_drw_of_gt {x y : Reg} {n : Fin 16} {s : State} (h : (n : Nat) > 0 ∧ s.i.toNat + n - 1 > 0xFFF) :
    exec (.drw x y n) s = raise (.drw x y n) .boundsViolation (.address (max s.i.toNat 0x1000)) s := by
  rw [exec, execDrw, loadBytes_error (by rw [dataBase]; omega)]
  rfl

theorem setPix_setV_advance_frame (s : State) (d : Display) (x : Reg) (b : Byte) :
    Frame [.pc, .pix] [x] s ({ s with pix := d }.setV x b).advance :=
  { Frame.refl [.pc, .pix] [x] s with
    v := fun r h => getV_setV_other _ b (List.ne_of_not_mem_cons h)
    pc := fun h => absurd (by decide) h
    pix := fun h => absurd (by decide) h }

/-! ## Targets -/

/-- The pixels that the drawing loop targets are those of `Targets`. -/
theorem spriteTargets_iff (x y : Reg) (n : Fin 16) (s : State) (px : Fin 64) (py : Fin 32) :
    spriteTargets (s.getV x).toNat (s.getV y).toNat (s.mem.range s.i.toNat n) px py ↔ Targets x y n s px py := by
  constructor
  · rintro ⟨row, b, hb, col, hcol, hbit, hpx, hpy⟩
    have hrow : row < n := by
      have := (List.getElem?_eq_some_iff.mp hb).1
      rwa [range_length] at this
    rw [range_get _ _ _ _ hrow, Option.some_inj] at hb
    exact ⟨row, col, hrow, hcol, hb ▸ hbit, congrArg Fin.val hpx, congrArg Fin.val hpy⟩
  · rintro ⟨row, col, hrow, hcol, hbit, hpx, hpy⟩
    exact ⟨row, _, range_get _ _ _ _ hrow, col, hcol, hbit, Fin.ext hpx, Fin.ext hpy⟩

/-- The pixels targeted depend on the coordinates, `I` and memory alone. -/
theorem targets_congr {x y : Reg} {n : Fin 16} {s t : State} (hx : t.getV x = s.getV x) (hy : t.getV y = s.getV y)
    (hi : t.i = s.i) (hmem : ∀ a, t.mem.get a = s.mem.get a) (px : Fin 64) (py : Fin 32) :
    Targets x y n t px py ↔ Targets x y n s px py := by
  simp only [Targets, hx, hy, hi, hmem]

/-- DRW draws its targets on the display (R173). -/
theorem drawn_targets (x y : Reg) (n : Fin 16) (s : State) :
    Drawn (Targets x y n s) (s.pix, false) (s.drawn x y n) := by
  refine (drawn_sprite _ _ _ ?_ _).congr (spriteTargets_iff x y n s)
  rw [range_length]
  omega

end Sys2Proof.Machine

namespace Sys2Proof.Proofs

open Sys2Proof.Machine

/-- Settles O35: the loop complements its targets, which are those of R173, and the flag is its report of one that was
on. -/
theorem drawComplementsTargets : Obligations.DrawComplementsTargets := by
  refine fun x y n s => ⟨fun h => ⟨_, exec_drw_of_le h, ?_⟩, exec_drw_of_gt⟩
  have hdrawn := drawn_targets x y n s
  have hflag (c : Bool) (d : Display) : (({ s with pix := d }.setV vf (flag c)).advance).getV vf = flag c := by simp
  refine ⟨hdrawn.on, hdrawn.off, fun hon => ?_, fun hon => ?_, rfl, setPix_setV_advance_frame s _ vf _⟩
  · rw [hflag, hdrawn.hit.mpr (.inr hon)]
    rfl
  · rw [hflag, Bool.eq_false_iff.mpr (mt hdrawn.hit.mp (not_or.mpr ⟨Bool.false_ne_true, hon⟩))]
    rfl

/-- Settles O36: the first draw leaves the coordinates, `I` and memory, so the second complements the same pixels. -/
theorem drawTwiceRestores : Obligations.DrawTwiceRestores := by
  intro x y n s t hx hy hbound hexec
  obtain ⟨t', hexec', hon, hoff, -, -, -, hframe⟩ := (drawComplementsTargets x y n s).1 hbound
  cases hexec.symm.trans hexec'
  have hi : t.i = s.i := hframe.i (by decide)
  obtain ⟨u, hexecu, hon', hoff', -⟩ := (drawComplementsTargets x y n t).1 (hi ▸ hbound)
  have htargets (px : Fin 64) (py : Fin 32) : Targets x y n t px py ↔ Targets x y n s px py :=
    targets_congr (hframe.v x (by simpa using hx)) (hframe.v y (by simpa using hy)) hi (hframe.mem (by decide)) px py
  refine ⟨u, hexecu, fun px py => ?_⟩
  by_cases hs : Targets x y n s px py
  · rw [hon' px py ((htargets px py).mpr hs), hon px py hs, Bool.not_not]
  · rw [hoff' px py (mt (htargets px py).mp hs), hoff px py hs]

end Sys2Proof.Proofs
end

section
/-! PROOFS. Keypad (45_keypad_and_timers.md): the two skips on a key. -/

namespace Sys2Proof.Machine

/-! ## The key test -/

theorem keyHeld_of_lt {a : Byte} {s : State} (k : Key) (h : a.toNat = k) : keyHeld a s = .ok (s.key k) := by
  simp [keyHeld, h]

theorem keyHeld_of_fault {a : Byte} {s : State} (h : a.toNat > 0xF) (hp : s.params.keyIndexPolicy = .fault) :
    keyHeld a s = .error .keyIndexOutOfRange := by
  simp [keyHeld, show ¬a.toNat < 16 by omega, hp]

theorem keyHeld_of_mask {a : Byte} {s : State} (h : a.toNat > 0xF) (hp : s.params.keyIndexPolicy = .mask) (k : Key)
    (hk : (k : Nat) = a.toNat % 16) : keyHeld a s = .ok (s.key k) := by
  simp [keyHeld, show ¬a.toNat < 16 by omega, hp, show k = Fin.ofNat 16 a.toNat from Fin.ext hk]

theorem keyHeld_of_notHeld {a : Byte} {s : State} (h : a.toNat > 0xF) (hp : s.params.keyIndexPolicy = .notHeld) :
    keyHeld a s = .ok false := by
  simp [keyHeld, show ¬a.toNat < 16 by omega, hp]

/-! ## Meanings -/

theorem exec_skpVx_of_ok {x : Reg} {s : State} {held : Bool} (h : keyHeld (s.getV x) s = .ok held) :
    exec (.skpVx x) s = .next (s.skipIf held) := by
  simp [exec, execSkpVx, h]

theorem exec_sknpVx_of_ok {x : Reg} {s : State} {held : Bool} (h : keyHeld (s.getV x) s = .ok held) :
    exec (.sknpVx x) s = .next (s.skipIf !held) := by
  simp [exec, execSknpVx, h]

theorem exec_skpVx_of_error {x : Reg} {s : State} {kind : ErrorKind} (h : keyHeld (s.getV x) s = .error kind) :
    exec (.skpVx x) s = raise (.skpVx x) kind (.keyValue (s.getV x)) s := by
  simp [exec, execSkpVx, h]

theorem exec_sknpVx_of_error {x : Reg} {s : State} {kind : ErrorKind} (h : keyHeld (s.getV x) s = .error kind) :
    exec (.sknpVx x) s = raise (.sknpVx x) kind (.keyValue (s.getV x)) s := by
  simp [exec, execSknpVx, h]

/-- A key test that answers decides both skips. -/
theorem skips_of_keyHeld {x : Reg} {s : State} {held : Bool} (h : keyHeld (s.getV x) s = .ok held) :
    SkipsWhen (.skpVx x) (held = true) s ∧ SkipsWhen (.sknpVx x) (held = false) s :=
  ⟨skipsWhen_of_exec (exec_skpVx_of_ok h) Iff.rfl, skipsWhen_of_exec (exec_sknpVx_of_ok h) (by simp)⟩

end Sys2Proof.Machine

namespace Sys2Proof.Proofs

open Sys2Proof.Machine

/-- Settles O37: the key test answers a flag or an error, and the two skips differ only in the sense of the flag. -/
theorem keySkips : Obligations.KeySkips := by
  refine fun x s => ⟨fun k hk => skips_of_keyHeld (keyHeld_of_lt k hk), fun hgt hp => ?_, fun hgt hp k hk => ?_,
    fun hgt hp => ?_⟩
  · have herror := keyHeld_of_fault hgt hp
    exact ⟨exec_skpVx_of_error herror, exec_sknpVx_of_error herror⟩
  · exact skips_of_keyHeld (keyHeld_of_mask hgt hp k hk)
  · simpa using skips_of_keyHeld (keyHeld_of_notHeld hgt hp)

end Sys2Proof.Proofs
end

section
/-! PROOFS. The execute phase over all instructions: what it can do, said once, and what follows for every part of the
state (10_state.md, 60_exceptions.md R227). -/

namespace Sys2Proof.Machine

/-! ## What the execute phase can do -/

/-- The execute phase of `i` raised: only `status` changed, and the record is one that fits and that R227 lists. -/
def Raised (i : Instr) (s t : State) : Prop :=
  ∃ kind info, t = s.halt ⟨kind, encode i, s.pc, info⟩ ∧
    ErrorRecord.InfoFits ⟨kind, encode i, s.pc, info⟩ ∧
    (s.sp ≤ 16 → expectedError i s = some kind)

/-- The ways in which the execute phase of an instruction completes: the state it may answer from `s`. -/
inductive Completes (s : State) : Instr → State → Prop
  | setV {i : Instr} (x : Reg) (b : Byte) (hdest : hasDestination i x = true) : Completes s i (s.setV x b).advance
  | setFlagThenV {i : Instr} (f : Byte) (x : Reg) (b : Byte) (hdest : hasDestination i x = true)
      (hflag : writesFlag i = true) : Completes s i (s.setFlagThenV f x b).advance
  | random (x : Reg) (kk b : Byte) : Completes s (.rndVxKk x kk) ({ s with draws := s.draws + 1 }.setV x b).advance
  | loadRegs (x : Reg) (bytes : List Byte) (hlen : bytes.length = x + 1) :
      Completes s (.ldVxMem x) { s with v := setRegsFrom 0 bytes s.v }.advance
  | skip {i : Instr} (c : Bool) : Completes s i (s.skipIf c)
  | jump {i : Instr} (a : Word16) (ha : a.toNat ≤ 0x10FE) : Completes s i { s with pc := a }
  | call (nnn : BitVec 12) (hdepth : s.sp < 16) :
      Completes s (.call nnn) { s with stack := s.stack ++ [s.pc], pc := address nnn }
  | ret (d : BitVec 4) (rest : List Word16) (a : Word16) (hstack : s.stack = rest ++ [a]) :
      Completes s (.ret d) { s with stack := rest, pc := a + 2 }
  | setI {i : Instr} (a : Word16) (hi : (∃ nnn, i = .ldIAddr nnn) ∨ ∃ x, i = .addIVx x ∨ i = .ldFVx x) :
      Completes s i { s with i := a }.advance
  | store {i : Instr} (m : Memory) (hi : ∃ x, i = .ldBVx x ∨ i = .ldMemVx x)
      (hwf : s.mem.wf = true → m.wf = true) : Completes s i { s with mem := m }.advance
  | clear (d : BitVec 4) : Completes s (.cls d) { s with pix := clearDisplay }.advance
  | draw (x y : Reg) (n : Fin 16) (d : Display) (f : Byte) :
      Completes s (.drw x y n) ({ s with pix := d }.setV vf f).advance
  | setDt (x : Reg) : Completes s (.ldDtVx x) { s with dt := s.getV x }.advance
  | setSt (x : Reg) : Completes s (.ldStVx x) { s with st := s.getV x }.advance
  | enterWait (x : Reg) : Completes s (.ldVxK x) { s with wait := .awaitingKey x }
  | keepWait (x : Reg) : Completes s (.ldVxK x) s

/-- The execute phase of `i` ended in `t`: it raised as R227 lists, or no error is listed and it completed. -/
def EndsAsListed (i : Instr) (s t : State) : Prop := Raised i s t ∨ (expectedError i s = none ∧ Completes s i t)

theorem raised_of_exec {i : Instr} {s t : State} {kind : ErrorKind} {info : ErrorInfo} (h : exec i s = .next t)
    (hexec : exec i s = raise i kind info s) (hfits : ErrorRecord.InfoFits ⟨kind, encode i, s.pc, info⟩)
    (hlisted : s.sp ≤ 16 → expectedError i s = some kind) : Raised i s t :=
  ⟨kind, info, Host.Outcome.next.inj (h.symm.trans hexec), hfits, hlisted⟩

/-- The address that a data access out of range names is outside memory. -/
theorem boundsViolation_fits (raw pc : Word16) (a : Nat) :
    ErrorRecord.InfoFits ⟨.boundsViolation, raw, pc, .address (max a 0x1000)⟩ := ⟨_, by omega, rfl⟩

theorem exec_call_ends {nnn : BitVec 12} {s t : State} (h : exec (.call nnn) s = .next t) :
    EndsAsListed (.call nnn) s t := by
  by_cases hdepth : s.sp < 16
  · cases (exec_call_of_lt nnn hdepth).symm.trans h
    exact .inr ⟨if_neg (by omega), .call nnn hdepth⟩
  · exact .inl (raised_of_exec h (exec_call_of_full nnn hdepth) rfl fun hle => if_pos (by omega))

theorem exec_ret_ends {d : BitVec 4} {s t : State} (h : exec (.ret d) s = .next t) :
    EndsAsListed (.ret d) s t := by
  rcases s.stack.eq_nil_or_concat with hstack | ⟨rest, a, hstack⟩
  · exact .inl (raised_of_exec h (exec_ret_of_nil d hstack) rfl fun _ => if_pos (List.length_eq_zero_iff.mpr hstack))
  · rw [List.concat_eq_append] at hstack
    cases (exec_ret_of_append d hstack).symm.trans h
    exact .inr ⟨if_neg (by simp [State.sp, hstack]), .ret d rest a hstack⟩

theorem exec_ldBVx_ends {x : Reg} {s t : State} (h : exec (.ldBVx x) s = .next t) :
    EndsAsListed (.ldBVx x) s t := by
  by_cases hi : s.i.toNat + 2 > 0xFFF
  · exact .inl (raised_of_exec h (exec_ldBVx_of_gt hi) (boundsViolation_fits _ _ _) fun _ => if_pos hi)
  · cases (exec_ldBVx_of_le (x := x) (Nat.not_lt.mp hi)).symm.trans h
    refine .inr ⟨if_neg hi, .store _ ⟨x, .inl rfl⟩ fun hwf => wf_setRange hwf _ (.inl ?_)⟩
    exact show s.i.toNat + 3 ≤ 4096 by omega

theorem exec_ldMemVx_ends {x : Reg} {s t : State} (h : exec (.ldMemVx x) s = .next t) :
    EndsAsListed (.ldMemVx x) s t := by
  by_cases hi : s.i.toNat + x > 0xFFF
  · exact .inl (raised_of_exec h (exec_ldMemVx_of_gt hi) (boundsViolation_fits _ _ _) fun _ => if_pos hi)
  · cases (exec_ldMemVx_of_le (Nat.not_lt.mp hi)).symm.trans h
    refine .inr ⟨if_neg hi, .store _ ⟨x, .inr rfl⟩ fun hwf => wf_setRange hwf _ (.inl ?_)⟩
    rw [regsTo_length]
    omega

theorem exec_ldVxMem_ends {x : Reg} {s t : State} (h : exec (.ldVxMem x) s = .next t) :
    EndsAsListed (.ldVxMem x) s t := by
  by_cases hi : s.i.toNat + x > 0xFFF
  · exact .inl (raised_of_exec h (exec_ldVxMem_of_gt hi) (boundsViolation_fits _ _ _) fun _ => if_pos hi)
  · cases (exec_ldVxMem_of_le (Nat.not_lt.mp hi)).symm.trans h
    exact .inr ⟨if_neg hi, .loadRegs x _ (range_length _ _ _)⟩

theorem exec_drw_ends {x y : Reg} {n : Fin 16} {s t : State} (h : exec (.drw x y n) s = .next t) :
    EndsAsListed (.drw x y n) s t := by
  by_cases hi : (n : Nat) > 0 ∧ s.i.toNat + n - 1 > 0xFFF
  · exact .inl (raised_of_exec h (exec_drw_of_gt hi) (boundsViolation_fits _ _ _) fun _ => if_pos hi)
  · cases (exec_drw_of_le (x := x) (y := y) (by omega)).symm.trans h
    exact .inr ⟨if_neg hi, .draw x y n _ _⟩

/-- The key test fails only for a value above 0xF under the fault policy. -/
theorem keyHeld_cases (a : Byte) (s : State) :
    (a.toNat > 0xF ∧ s.params.keyIndexPolicy = .fault ∧ keyHeld a s = .error .keyIndexOutOfRange) ∨
    (¬(a.toNat > 0xF ∧ s.params.keyIndexPolicy = .fault) ∧ ∃ held, keyHeld a s = .ok held) := by
  by_cases ha : a.toNat > 0xF
  · cases hp : s.params.keyIndexPolicy with
    | fault => exact .inl ⟨ha, rfl, keyHeld_of_fault ha hp⟩
    | mask => exact .inr ⟨by simp, _, keyHeld_of_mask ha hp (Fin.ofNat 16 a.toNat) rfl⟩
    | notHeld => exact .inr ⟨by simp, _, keyHeld_of_notHeld ha hp⟩
  · exact .inr ⟨fun h => ha h.1, _, keyHeld_of_lt ⟨a.toNat, by omega⟩ rfl⟩

theorem exec_skpVx_ends {x : Reg} {s t : State} (h : exec (.skpVx x) s = .next t) :
    EndsAsListed (.skpVx x) s t := by
  rcases keyHeld_cases (s.getV x) s with ⟨hgt, hp, hkey⟩ | ⟨hno, held, hkey⟩
  · exact .inl (raised_of_exec h (exec_skpVx_of_error hkey) ⟨_, hgt, rfl⟩ fun _ => if_pos ⟨hgt, hp⟩)
  · cases (exec_skpVx_of_ok hkey).symm.trans h
    exact .inr ⟨if_neg hno, .skip held⟩

theorem exec_sknpVx_ends {x : Reg} {s t : State} (h : exec (.sknpVx x) s = .next t) :
    EndsAsListed (.sknpVx x) s t := by
  rcases keyHeld_cases (s.getV x) s with ⟨hgt, hp, hkey⟩ | ⟨hno, held, hkey⟩
  · exact .inl (raised_of_exec h (exec_sknpVx_of_error hkey) ⟨_, hgt, rfl⟩ fun _ => if_pos ⟨hgt, hp⟩)
  · cases (exec_sknpVx_of_ok hkey).symm.trans h
    exact .inr ⟨if_neg hno, .skip (!held)⟩

theorem exec_ldVxK_completes {x : Reg} {s t : State} (h : exec (.ldVxK x) s = .next t) :
    Completes s (.ldVxK x) t := by
  cases hwait : s.wait with
  | normal =>
    cases (exec_ldVxK_of_normal x hwait).symm.trans h
    exact .enterWait x
  | awaitingKey r =>
    cases (exec_ldVxK_of_awaitingKey x hwait).symm.trans h
    exact .keepWait x

/-- What the execute phase of an instruction can do: raise as R227 lists, or complete. -/
theorem exec_ends {i : Instr} {s t : State} (h : exec i s = .next t) : EndsAsListed i s t := by
  cases i
  case call => exact exec_call_ends h
  case ret => exact exec_ret_ends h
  case ldBVx => exact exec_ldBVx_ends h
  case ldMemVx => exact exec_ldMemVx_ends h
  case ldVxMem => exact exec_ldVxMem_ends h
  case drw => exact exec_drw_ends h
  case skpVx => exact exec_skpVx_ends h
  case sknpVx => exact exec_sknpVx_ends h
  case ldVxK => exact .inr ⟨rfl, exec_ldVxK_completes h⟩
  all_goals obtain rfl := Host.Outcome.next.inj h
  case ldVxKk x _ | addVxKk x _ | ldVxVy x _ | orVxVy x _ | andVxVy x _ | xorVxVy x _ | ldVxDt x =>
    exact .inr ⟨rfl, .setV x _ (beq_self_eq_true x)⟩
  case addVxVy x _ | subVxVy x _ | shrVx x _ | subnVxVy x _ | shlVx x _ =>
    exact .inr ⟨rfl, .setFlagThenV _ x _ (beq_self_eq_true x) rfl⟩
  case seVxKk | sneVxKk | seVxVy | sneVxVy => exact .inr ⟨rfl, .skip _⟩
  case jp nnn => exact .inr ⟨rfl, .jump _ (by rw [address_toNat]; omega)⟩
  case jpV0Addr nnn => exact .inr ⟨rfl, .jump _ (by rw [indexedTarget_toNat]; omega)⟩
  case ldIAddr nnn => exact .inr ⟨rfl, .setI _ (.inl ⟨nnn, rfl⟩)⟩
  case addIVx x => exact .inr ⟨rfl, .setI _ (.inr ⟨x, .inl rfl⟩)⟩
  case ldFVx x => exact .inr ⟨rfl, .setI _ (.inr ⟨x, .inr rfl⟩)⟩
  case rndVxKk x kk => exact .inr ⟨rfl, .random x kk _⟩
  case cls d => exact .inr ⟨rfl, .clear d⟩
  case ldDtVx x => exact .inr ⟨rfl, .setDt x⟩
  case ldStVx x => exact .inr ⟨rfl, .setSt x⟩

end Sys2Proof.Machine
end

section
/-! PROOFS. Each part of the state over all instructions: who may write it (10_state.md), and who raises (R227). -/

namespace Sys2Proof.Machine

/-! ## Parts of the state after an instruction that completes -/

namespace Completes

variable {s t : State} {i : Instr}

theorem status_eq (h : Completes s i t) : t.status = s.status := by cases h <;> rfl

theorem keys_eq (h : Completes s i t) : t.keys = s.keys := by cases h <;> rfl

theorem params_eq (h : Completes s i t) : t.params = s.params := by cases h <;> rfl

theorem mem_eq_or (h : Completes s i t) : t.mem = s.mem ∨ ∃ x, i = .ldBVx x ∨ i = .ldMemVx x := by
  cases h with
  | store m hi hwf => exact .inr hi
  | _ => exact .inl rfl

theorem pix_eq_or (h : Completes s i t) : t.pix = s.pix ∨ (∃ d, i = .cls d) ∨ ∃ x y n, i = .drw x y n := by
  cases h with
  | clear d => exact .inr (.inl ⟨d, rfl⟩)
  | draw x y n d f => exact .inr (.inr ⟨x, y, n, rfl⟩)
  | _ => exact .inl rfl

theorem i_eq_or (h : Completes s i t) :
    t.i = s.i ∨ (∃ nnn, i = .ldIAddr nnn) ∨ ∃ x, i = .addIVx x ∨ i = .ldFVx x := by
  cases h with
  | setI a hi => exact .inr hi
  | _ => exact .inl rfl

theorem stack_eq_or (h : Completes s i t) : t.stack = s.stack ∨ (∃ nnn, i = .call nnn) ∨ ∃ d, i = .ret d := by
  cases h with
  | call nnn hdepth => exact .inr (.inl ⟨nnn, rfl⟩)
  | ret d rest a hstack => exact .inr (.inr ⟨d, rfl⟩)
  | _ => exact .inl rfl

theorem dt_eq_or (h : Completes s i t) : t.dt = s.dt ∨ ∃ x, i = .ldDtVx x := by
  cases h with
  | setDt x => exact .inr ⟨x, rfl⟩
  | _ => exact .inl rfl

theorem st_eq_or (h : Completes s i t) : t.st = s.st ∨ ∃ x, i = .ldStVx x := by
  cases h with
  | setSt x => exact .inr ⟨x, rfl⟩
  | _ => exact .inl rfl

theorem wait_eq_or (h : Completes s i t) : t.wait = s.wait ∨ ∃ x, i = .ldVxK x := by
  cases h with
  | enterWait x => exact .inr ⟨x, rfl⟩
  | _ => exact .inl rfl

theorem draws_eq_or (h : Completes s i t) : t.draws = s.draws ∨ ∃ x kk, i = .rndVxKk x kk := by
  cases h with
  | random x kk b => exact .inr ⟨x, kk, rfl⟩
  | _ => exact .inl rfl

theorem getV_eq_or (h : Completes s i t) (r : Reg) :
    t.getV r = s.getV r ∨ hasDestination i r = true ∨ (r = vf ∧ writesFlag i = true) := by
  cases h with
  | setV x b hdest =>
    by_cases hr : r = x
    · exact .inr (.inl (hr ▸ hdest))
    · exact .inl (getV_setV_other s b hr)
  | setFlagThenV f x b hdest hflag =>
    by_cases hr : r = x
    · exact .inr (.inl (hr ▸ hdest))
    · by_cases hf : r = vf
      · exact .inr (.inr ⟨hf, hflag⟩)
      · exact .inl (getV_setFlagThenV_other s f b hr hf)
  | random x kk b =>
    by_cases hr : r = x
    · exact .inr (.inl (beq_iff_eq.mpr hr))
    · exact .inl (getV_setV_other _ b hr)
  | loadRegs x bytes hlen =>
    by_cases hr : r ≤ x
    · exact .inr (.inl (decide_eq_true hr))
    · have hnone : bytes[(r : Nat)]? = none := List.getElem?_eq_none (by rw [hlen]; exact Nat.lt_of_not_le hr)
      exact .inl (by rw [getV_advance, getV_setRegsFrom, hnone, Option.getD_none])
  | draw x y n d f =>
    by_cases hf : r = vf
    · exact .inr (.inr ⟨hf, rfl⟩)
    · exact .inl (getV_setV_other _ f hf)
  | _ => exact .inl rfl

end Completes

/-! ## The execute phase as a whole -/

/-- An execute phase that leaves the core running completed. -/
theorem completes_of_running {i : Instr} {s t : State} (h : exec i s = .next t) (hrun : t.status = .running) :
    Completes s i t := by
  rcases exec_ends h with ⟨kind, info, rfl, -, -⟩ | ⟨-, hc⟩
  · cases hrun
  · exact hc

/-- An execute phase that halts a running core raised. -/
theorem raised_of_halted {i : Instr} {s t : State} {err : ErrorRecord} (hrun : s.status = .running)
    (h : exec i s = .next t) (hhalt : t.status = .halted err) : Raised i s t := by
  rcases exec_ends h with hraised | ⟨-, hc⟩
  · exact hraised
  · cases hrun.symm.trans (hc.status_eq.symm.trans hhalt)

/-- The execute phase of a running core halts it exactly with the errors that R227 lists. -/
theorem status_of_exec {i : Instr} {s t : State} (hrun : s.status = .running) (hdepth : s.sp ≤ 16)
    (h : exec i s = .next t) :
    (expectedError i s = none → t.status = .running) ∧
    (∀ kind, expectedError i s = some kind → ∃ err, t.status = .halted err ∧ err.kind = kind) := by
  rcases exec_ends h with ⟨kind, info, rfl, -, hlisted⟩ | ⟨hnone, hc⟩
  · rw [hlisted hdepth]
    exact ⟨nofun, fun _ hkind => ⟨_, rfl, Option.some.inj hkind⟩⟩
  · rw [hnone]
    exact ⟨fun _ => hc.status_eq.trans hrun, nofun⟩

end Sys2Proof.Machine

namespace Sys2Proof.Proofs

open Sys2Proof.Machine

/-- Settles O28: the draw is the one write of the counter; a raise leaves it. -/
theorem randomIsMaskedAndDrawsOnce : Obligations.RandomIsMaskedAndDrawsOnce := by
  refine ⟨fun x kk s => ⟨_, exec_rndVxKk x kk s, getV_setV_same _ x _, ?_, rfl, rfl,
    setDraws_setV_advance_frame s x _⟩, fun i s t hi h => ?_⟩
  · rw [getV_advance, getV_setV_same, BitVec.and_assoc, BitVec.and_not_self]
    exact BitVec.and_zero
  · rcases exec_ends h with ⟨kind, info, rfl, -, -⟩ | ⟨-, hc⟩
    · rfl
    · exact hc.draws_eq_or.resolve_right fun ⟨x, kk, hrnd⟩ => hi x kk hrnd

/-- Settles O51: an execute phase ends as the table lists. -/
theorem onlyListedInstructionsRaise : Obligations.OnlyListedInstructionsRaise := fun i s hrun hdepth => by
  obtain ⟨t, ht⟩ := exec_answers i s
  exact ⟨t, ht, status_of_exec hrun hdepth ht⟩

/-- Settles O53: a raise writes none of the parts, and a completing instruction each part as its case says. -/
theorem onlyNamedInstructionsWriteEachPart : Obligations.OnlyNamedInstructionsWriteEachPart := by
  intro i s t h
  rcases exec_ends h with ⟨kind, info, rfl, -, -⟩ | ⟨-, hc⟩
  · exact ⟨.inl rfl, .inl rfl, .inl rfl, .inl rfl, .inl rfl, .inl rfl, .inl rfl, rfl, rfl⟩
  · exact ⟨hc.mem_eq_or, hc.pix_eq_or, hc.i_eq_or, hc.stack_eq_or, hc.dt_eq_or, hc.st_eq_or, hc.wait_eq_or,
      hc.keys_eq, hc.params_eq⟩

/-- Settles O54: a raise writes no register, and a completing instruction only its destinations and the flag. -/
theorem registersChangeOnlyAsDestinations : Obligations.RegistersChangeOnlyAsDestinations := by
  intro i s t r h hne
  rcases exec_ends h with ⟨kind, info, rfl, -, -⟩ | ⟨-, hc⟩
  · exact absurd (getV_halt s _ r) hne
  · exact (hc.getV_eq_or r).resolve_left hne

end Sys2Proof.Proofs
end

section
/-! PROOFS. The Step (40_step_cycle.md): fetch, dispatch, execute phase, timer phase. -/

namespace Sys2Proof.Machine

/-! ## Fetch (R43, R51) -/

theorem joinBytes_toNat (hi lo : Byte) : (joinBytes hi lo).toNat = hi.toNat * 256 + lo.toNat := by
  have hshift : hi.toNat <<< 8 ||| lo.toNat = hi.toNat <<< 8 + lo.toNat :=
    (Nat.shiftLeft_add_eq_or_of_lt lo.isLt hi.toNat).symm
  rw [joinBytes, BitVec.toNat_append, hshift, Nat.shiftLeft_eq]

/-! ## Timers (R88, R89) -/

theorem decrement_toNat (b : Byte) : (decrement b).toNat = b.toNat - 1 := by
  rw [decrement, BitVec.toNat_ofNat, Nat.mod_eq_of_lt (by omega)]

theorem decrement_eq (b : Byte) : decrement b = if b = 0 then 0 else b - 1 := by
  refine BitVec.eq_of_toNat_eq ?_
  rw [decrement_toNat]
  split
  · next hb => simp [hb]
  · next hb => bv_omega

theorem tick_eq (s : State) :
    s.tick = { s with dt := if s.dt = 0 then 0 else s.dt - 1, st := if s.st = 0 then 0 else s.st - 1 } := by
  rw [State.tick, decrement_eq, decrement_eq]

theorem tone_iff (s : State) : s.tone = true ↔ s.st.toNat ≠ 0 := by
  rw [State.tone, bne_iff_ne, ne_eq, ← BitVec.toNat_inj]
  rfl

/-! ## The end of a Step -/

@[simp] theorem endStep_status (s : State) : s.endStep.status = s.status := by unfold State.endStep; split <;> rfl
@[simp] theorem endStep_wait (s : State) : s.endStep.wait = s.wait := by unfold State.endStep; split <;> rfl
@[simp] theorem endStep_pc (s : State) : s.endStep.pc = s.pc := by unfold State.endStep; split <;> rfl

/-! ## The Step as a whole -/

theorem Fetches.step_eq {s u : State} {raw : Word16} {i : Instr} (hf : Fetches s raw i) (hu : exec i s = .next u) :
    step s = .next u.endStep := by
  obtain ⟨hrun, hfetch, hdecode⟩ := hf
  rw [step_decoded hrun hfetch hdecode, hu]
  rfl

/-- A Step of a fetched instruction answers what its execute phase left, at the end of the Step. -/
theorem Fetches.exists_exec {s t : State} {raw : Word16} {i : Instr} (hf : Fetches s raw i) (h : step s = .next t) :
    ∃ u, exec i s = .next u ∧ t = u.endStep := by
  obtain ⟨u, hu⟩ := exec_answers i s
  exact ⟨u, hu, Host.Outcome.next.inj (h.symm.trans (hf.step_eq hu))⟩

/-- A Step of a fetched instruction that ends running is its completed execute phase and the timer phase. -/
theorem Fetches.exists_tick {s t : State} {raw : Word16} {i : Instr} (hf : Fetches s raw i) (h : step s = .next t)
    (hrun : t.status = .running) : ∃ u, exec i s = .next u ∧ Completes s i u ∧ t = u.tick := by
  obtain ⟨u, hu, rfl⟩ := hf.exists_exec h
  rw [endStep_status] at hrun
  exact ⟨u, hu, completes_of_running hu hrun, endStep_running hrun⟩

/-- Where the invariant holds and a key is awaited, the word at `pc` is that of the wait (R36, R87). -/
theorem State.Inv.fetches {s : State} {r : Reg} (hs : s.Inv) (hwait : s.wait = .awaitingKey r) :
    Fetches s (encode (.ldVxK r)) (.ldVxK r) :=
  have ⟨hrun, hfetch⟩ := hs.awaiting r hwait
  ⟨hrun, hfetch, decodeWord_encode (wellFormed_iff.mpr fun _ => rfl)⟩

theorem step_of_awaiting {s : State} {r : Reg} (hs : s.Inv) (hwait : s.wait = .awaitingKey r) :
    step s = .next s.tick := by
  rw [(hs.fetches hwait).step_eq (exec_ldVxK_of_awaitingKey r hwait), endStep_running (hs.awaiting r hwait).1]

theorem step_answers (s : State) : ∃ t, step s = .next t := by
  cases hs : s.status with
  | halted err => exact ⟨_, step_halted hs⟩
  | running =>
    cases hf : fetchWord s.mem s.pc.toNat with
    | error a => exact ⟨_, step_fetchError hs hf⟩
    | ok raw =>
      cases hd : decodeWord s.params.strictDecode raw with
      | error e => exact ⟨_, step_unknown hs hf hd⟩
      | ok i =>
        obtain ⟨u, hu⟩ := exec_answers i s
        exact ⟨_, Fetches.step_eq ⟨hs, hf, hd⟩ hu⟩

/-- A word that no row matches is unknown. -/
theorem decodeWord_of_no_match {strict : Bool} {raw : Word16}
    (h : ∀ i : Instr, i.row.matchesWord strict raw = false) : ∃ e, decodeWord strict raw = .error e := by
  cases hd : decodeWord strict raw with
  | error e => exact ⟨e, rfl⟩
  | ok i => cases (h i).symm.trans (matchesWord_of_decodeWord hd)

end Sys2Proof.Machine

namespace Sys2Proof.Proofs

open Sys2Proof.Machine

/-- Settles O6: 0xFFE is the last address with two bytes, and the lowest one outside memory is 0x1000. -/
theorem fetchIsBigEndian : Obligations.FetchIsBigEndian := by
  refine fun m a => ⟨fun ha => ⟨_, fetchWord_ok (by omega), joinBytes_toNat _ _⟩, fun ha => ?_, fun ha => ?_⟩
  · subst ha
    exact fetchWord_error (by decide)
  · rw [fetchWord_error (by omega), Nat.max_eq_left ha]

/-- Settles O7: the timer phase follows only where the status is still running. -/
theorem stepRunsTheDecodedInstruction : Obligations.StepRunsTheDecodedInstruction := by
  refine fun s raw i u hf hu => ⟨fun hrun => ?_, fun err hhalt => ?_⟩
  · rw [hf.step_eq hu, endStep_running hrun, tick_eq]
  · rw [hf.step_eq hu, endStep_halted hhalt]

/-- Settles O8. -/
theorem haltedStepChangesNothing : Obligations.HaltedStepChangesNothing := fun _ _ h => step_halted h

/-- Settles O9: the offending address is the larger of `pc` and 0x1000. -/
theorem fetchOutsideMemoryHalts : Obligations.FetchOutsideMemoryHalts := by
  refine fun s hrun hpc => ⟨Config.unfetchedRaw s.draws, ?_⟩
  have hmax : max s.pc.toNat 0x1000 = if s.pc.toNat > 0xFFF then s.pc.toNat else 0x1000 := by
    split <;> omega
  rw [step_fetchError hrun (fetchWord_error (by omega)), hmax]
  rfl

/-- Settles O10. -/
theorem unknownOpcodeHalts : Obligations.UnknownOpcodeHalts := fun _ _ hrun hfetch hdecode =>
  step_unknown hrun hfetch hdecode

/-- Settles O11: fetch, dispatch and the execute phase raise by the same write of `status`, each with its own record. -/
theorem raisingStepChangesOnlyStatus : Obligations.RaisingStepChangesOnlyStatus := by
  intro s t err hrun h hhalt
  rcases step_cases h with ⟨_, hs, -⟩ | ⟨-, a, hfetch, rfl⟩ | ⟨-, raw, e, hfetch, -, rfl⟩ |
    ⟨-, raw, i, u, hfetch, hdecode, hu, rfl⟩
  · cases hrun.symm.trans hs
  · cases hhalt
    have hpc : ¬s.pc.toNat ≤ 0xFFE := fun hle => by simp [fetchWord_ok hle] at hfetch
    have hnone := fetchWord_error (m := s.mem) hpc
    cases hnone.symm.trans hfetch
    exact ⟨rfl, rfl, fun _ hraw => (nomatch hnone.symm.trans hraw), boundsViolation_fits _ _ _⟩
  · cases hhalt
    exact ⟨rfl, rfl, fun _ hraw => Except.ok.inj (hfetch.symm.trans hraw), rfl⟩
  · rw [endStep_status] at hhalt
    obtain ⟨kind, info, rfl, hfits, -⟩ := raised_of_halted hrun hu hhalt
    cases hhalt
    have hword : encode i = raw := (isInstrOf_of_decodeWord hdecode).1
    exact ⟨rfl, rfl, fun _ hraw => hword.trans (Except.ok.inj (hfetch.symm.trans hraw)), hfits⟩

/-- Settles O12: every branch of the Step answers a state. -/
theorem everyStepAnswersNext : Obligations.EveryStepAnswersNext := step_answers

/-- Settles O13: the execute phase leaves a timer as it was or loads it, and the timer phase decrements that value. -/
theorem timersDecrementOncePerStep : Obligations.TimersDecrementOncePerStep := by
  intro s t raw i hf h hrun
  obtain ⟨u, hu, hc, rfl⟩ := hf.exists_tick h hrun
  refine ⟨?_, fun hi => ?_, ?_, fun hi => ?_⟩
  · rintro x rfl
    cases hu
    exact decrement_toNat _
  · rw [State.tick_dt, decrement_toNat, hc.dt_eq_or.resolve_right fun ⟨x, hx⟩ => hi x hx]
  · rintro x rfl
    cases hu
    exact decrement_toNat _
  · rw [State.tick_st, decrement_toNat, hc.st_eq_or.resolve_right fun ⟨x, hx⟩ => hi x hx]

/-- Settles O14: the loading Step itself decrements ST, so a loaded 1 is 0 at its end. -/
theorem soundTimerOneNeverSounds : Obligations.SoundTimerOneNeverSounds := by
  intro s raw x hf
  refine ⟨_, (hf.step_eq (exec_ldStVx x s)).trans (congrArg _ (endStep_running hf.1)), ?_⟩
  rw [tone_iff, State.tick_st, decrement_toNat]
  exact show (s.getV x).toNat - 1 ≠ 0 ↔ 2 ≤ (s.getV x).toNat by omega

/-- Settles O15: the wait continues on its own LD Vx,K, whose execute phase writes nothing. -/
theorem awaitingStepOnlyRunsTimers : Obligations.AwaitingStepOnlyRunsTimers := fun s r hs hwait => by
  rw [step_of_awaiting hs hwait, tick_eq]

/-- Settles O43: the end of the Step keeps `wait` and `pc` as the execute phase left them. -/
theorem onlyKeyWaitEntersAwaiting : Obligations.OnlyKeyWaitEntersAwaiting := by
  intro s t raw i hf hwait h
  obtain ⟨u, hu, rfl⟩ := hf.exists_exec h
  rw [endStep_wait, endStep_pc]
  refine ⟨?_, fun hi => ?_⟩
  · rintro x rfl
    cases (exec_ldVxK_of_normal x hwait).symm.trans hu
    exact ⟨rfl, rfl⟩
  · rcases exec_ends hu with ⟨kind, info, rfl, -, -⟩ | ⟨-, hc⟩
    · exact hwait
    · exact (hc.wait_eq_or.resolve_right fun ⟨x, hx⟩ => hi x hx).trans hwait

/-- Settles O52: fetch and dispatch raise before any instruction runs, and the end of the Step keeps the status that the
execute phase left. -/
theorem stepRaisesExactlyAsListed : Obligations.StepRaisesExactlyAsListed := by
  intro s hrun hdepth
  obtain ⟨t, ht⟩ := step_answers s
  refine ⟨t, ht, fun hpc => ?_, fun raw hfetch hno => ?_, fun raw i hf => ?_⟩
  · cases (step_fetchError hrun (fetchWord_error (Nat.not_le.mpr hpc))).symm.trans ht
    exact ⟨_, rfl, rfl⟩
  · obtain ⟨e, hdecode⟩ := decodeWord_of_no_match hno
    cases (step_unknown hrun hfetch hdecode).symm.trans ht
    exact ⟨_, rfl, rfl⟩
  · obtain ⟨u, hu, rfl⟩ := hf.exists_exec ht
    rw [endStep_status]
    exact status_of_exec hrun hdepth hu

end Sys2Proof.Proofs
end

section
/-! PROOFS. The host's key events (45_keypad_and_timers.md) and Reset (70_reset_and_hazards.md). -/

namespace Sys2Proof.Machine

/-! ## Key flags -/

@[simp] theorem key_setKey_same (s : State) (k : Key) (held : Bool) : (s.setKey k held).key k = held := by
  simp [State.key]

theorem key_setKey_other (s : State) {k j : Key} (held : Bool) (h : j ≠ k) : (s.setKey k held).key j = s.key j := by
  have hval : (k : Nat) ≠ j := fun e => h (Fin.ext e.symm)
  simp [State.key, hval]

theorem setKey_frame (s : State) (k : Key) (held : Bool) : Frame [.keys] [] s (s.setKey k held) :=
  { Frame.refl [.keys] [] s with keys := fun h => absurd (by decide) h }

/-! ## KeyDown and KeyUp -/

/-- The state that a KeyDown of `k` leaves where a key for `V[r]` was awaited (R200). -/
def State.keyTaken (s : State) (k : Key) (r : Reg) : State :=
  ({ s.setKey k true with wait := .normal }.setV r (BitVec.ofNat 8 k)).advance

theorem event_keyDown_of_halted (k : Key) {s : State} {err : ErrorRecord} (h : s.status = .halted err) :
    event (.keyDown k) s = .next s := by
  simp [event, keyDown, h]

theorem event_keyDown_of_normal (k : Key) {s : State} (hrun : s.status = .running) (hwait : s.wait = .normal) :
    event (.keyDown k) s = .next (s.setKey k true) := by
  simp [event, keyDown, hrun, State.resolveWait, hwait]

theorem event_keyDown_of_awaiting (k : Key) {s : State} {r : Reg} (hrun : s.status = .running)
    (hwait : s.wait = .awaitingKey r) : event (.keyDown k) s = .next (s.keyTaken k r) := by
  simp [event, keyDown, hrun, State.resolveWait, hwait, State.keyTaken]

theorem event_keyUp_of_halted (k : Key) {s : State} {err : ErrorRecord} (h : s.status = .halted err) :
    event (.keyUp k) s = .next s := by
  simp [event, keyUp, h]

theorem event_keyUp_of_running (k : Key) {s : State} (h : s.status = .running) :
    event (.keyUp k) s = .next (s.setKey k false) := by
  simp [event, keyUp, h]

theorem keyTaken_frame (s : State) (k : Key) (r : Reg) : Frame [.keys, .pc, .wait] [r] s (s.keyTaken k r) :=
  { Frame.refl [.keys, .pc, .wait] [r] s with
    v := fun _ h => getV_setV_other _ _ (List.ne_of_not_mem_cons h)
    keys := fun h => absurd (by decide) h
    pc := fun h => absurd (by decide) h
    wait := fun h => absurd (by decide) h }

/-- The awaited register receives the key code, which is below 16 and so keeps its value as a byte. -/
theorem getV_keyTaken (s : State) (k : Key) (r : Reg) : ((s.keyTaken k r).getV r).toNat = k := by
  rw [State.keyTaken, getV_advance, getV_setV_same, BitVec.toNat_ofNat, Nat.mod_eq_of_lt (by omega)]

/-! ## Memory after Reset (R250) -/

/-- The bytes of FONT that Reset writes from address 0 on. -/
def fontBytes (font : Font) : List Byte := (List.range 80).map (fontByte font)

theorem fontBytes_length (font : Font) : (fontBytes font).length = 80 := by simp [fontBytes]

theorem fontBytes_get (font : Font) {a : Nat} (h : a < 80) : (fontBytes font)[a]? = some (fontByte font a) := by
  simp [fontBytes, h]

theorem background_of_ge {a : Nat} (h : 80 ≤ a) : background a = 0 := dif_neg (by omega)

/-- Memory with FONT in it and no image yet. -/
def fontMemory (font : Font) : Memory := (⟨[]⟩ : Memory).setRange 0 (fontBytes font)

theorem resetMemory_eq (font : Font) (rom : List Byte) : resetMemory font rom = (fontMemory font).setRange 0x200 rom :=
  rfl

theorem fontBytes_fit (font : Font) : 0 + (fontBytes font).length ≤ 4096 := by rw [fontBytes_length]; omega

theorem wf_fontMemory (font : Font) : (fontMemory font).wf := wf_setRange rfl _ (.inl (fontBytes_fit font))

theorem get_fontMemory_of_lt (font : Font) {a : Nat} (h : a < 80) : (fontMemory font).get a = fontByte font a := by
  have hread := get_setRange_at (m := ⟨[]⟩) rfl (fontBytes_fit font) (fontBytes_get font h)
  rwa [Nat.zero_add] at hread

theorem get_fontMemory_of_ge (font : Font) {a : Nat} (h : 80 ≤ a) : (fontMemory font).get a = 0 := by
  have hout : a < 0 ∨ 0 + (fontBytes font).length ≤ a := by rw [fontBytes_length]; omega
  exact (get_setRange_outside (m := ⟨[]⟩) rfl _ (.inl (fontBytes_fit font)) hout).trans (background_of_ge h)

theorem rom_fits {rom : List Byte} (h : rom.length ≤ 3584) : 0x200 + rom.length ≤ 4096 := by omega

theorem wf_resetMemory (font : Font) {rom : List Byte} (h : rom.length ≤ 3584) : (resetMemory font rom).wf :=
  wf_setRange (wf_fontMemory font) rom (.inl (rom_fits h))

theorem get_resetMemory_rom (font : Font) {rom : List Byte} (h : rom.length ≤ 3584) {j : Nat} (hj : j < rom.length) :
    (resetMemory font rom).get (0x200 + j) = rom[j] :=
  get_setRange_at (wf_fontMemory font) (rom_fits h) (List.getElem?_eq_getElem hj)

/-- Outside the image memory is as FONT left it. -/
theorem get_resetMemory_outside (font : Font) {rom : List Byte} (h : rom.length ≤ 3584) {a : Nat}
    (ha : a < 0x200 ∨ 0x200 + rom.length ≤ a) : (resetMemory font rom).get a = (fontMemory font).get a :=
  get_setRange_outside (wf_fontMemory font) rom (.inl (rom_fits h)) ha

/-! ## Reset -/

theorem event_reset_of_le (font : Font) {rom : List Byte} (s : State) (h : rom.length ≤ 3584) :
    event (.reset font rom) s = .next (s.resetWith font rom) := if_pos h

theorem event_reset_of_gt (font : Font) {rom : List Byte} (s : State) (h : rom.length > 3584) :
    event (.reset font rom) s = .refused (.romTooLong rom.length) := if_neg (Nat.not_le.mpr h)

/-- The default FONT is what unlisted memory reads as, so writing it lists nothing. -/
theorem resetMemory_default : resetMemory defaultFont [] = ⟨[]⟩ := by decide

end Sys2Proof.Machine

namespace Sys2Proof.Proofs

open Sys2Proof.Machine

/-- Settles O41: the flag is set first, and a pending wait is then resolved whatever the flag was. -/
theorem keyDownResolvesWait : Obligations.KeyDownResolvesWait := by
  refine fun k s => ⟨fun err hhalt => event_keyDown_of_halted k hhalt, fun hrun => ?_⟩
  cases hwait : s.wait with
  | normal =>
    refine ⟨_, event_keyDown_of_normal k hrun hwait, key_setKey_same s k true,
      fun j hj => key_setKey_other s true hj, fun _ => setKey_frame s k true, nofun⟩
  | awaitingKey r =>
    refine ⟨_, event_keyDown_of_awaiting k hrun hwait, key_setKey_same s k true,
      fun j hj => key_setKey_other s true hj, nofun, ?_⟩
    rintro _ ⟨⟩
    exact ⟨getV_keyTaken s k r, rfl, rfl, keyTaken_frame s k r⟩

/-- Settles O42: the wait is among the parts kept. -/
theorem keyUpOnlyClearsFlag : Obligations.KeyUpOnlyClearsFlag := fun k s =>
  ⟨fun _ hhalt => event_keyUp_of_halted k hhalt, fun hrun =>
    ⟨_, event_keyUp_of_running k hrun, key_setKey_same s k false, fun _ hj => key_setKey_other s false hj,
      setKey_frame s k false⟩⟩

/-- Settles O44: FONT ends below the image, and both are written over memory that reads as zero. -/
theorem resetReinitialisesEverything : Obligations.ResetReinitialisesEverything := by
  intro font rom s h
  refine ⟨_, event_reset_of_le font s h, fun a ha => ?_, fun a ha hlt => ?_,
    fun j hj => get_resetMemory_rom font h hj, fun a ha => ?_, fun r => ?_, rfl, rfl, rfl, rfl, rfl, rfl, rfl, pixel_clearDisplay, fun k => ?_, rfl, rfl⟩
  · exact (get_resetMemory_outside font h (.inl (by omega))).trans (get_fontMemory_of_lt font ha)
  · exact (get_resetMemory_outside font h (.inl hlt)).trans (get_fontMemory_of_ge font ha)
  · exact (get_resetMemory_outside font h (.inr ha)).trans (get_fontMemory_of_ge font (by omega))
  · exact Vector.getElem_replicate r.isLt
  · exact Vector.getElem_replicate k.isLt

/-- Settles O45. -/
theorem oversizeImageIsRefused : Obligations.OversizeImageIsRefused := fun font _ s h => event_reset_of_gt font s h

/-- Settles O46: writing the default FONT over unlisted memory lists nothing. -/
theorem resetStateIsAnEmptyReset : Obligations.ResetStateIsAnEmptyReset := by
  refine ⟨resetMemory_default, rfl, fun s => ?_⟩
  rw [event_reset_of_le defaultFont s (Nat.zero_le _), State.resetWith, resetMemory_default]
  rfl

/-- Settles O47: Step, KeyDown and KeyUp each look at the status first. -/
theorem onlyResetLeavesHalted : Obligations.OnlyResetLeavesHalted := by
  intro e s t err hhalt he h
  cases e with
  | step => exact Host.Outcome.next.inj (h.symm.trans (step_halted hhalt))
  | keyDown k => exact Host.Outcome.next.inj (h.symm.trans (event_keyDown_of_halted k hhalt))
  | keyUp k => exact Host.Outcome.next.inj (h.symm.trans (event_keyUp_of_halted k hhalt))
  | reset font rom => exact absurd rfl (he font rom)

end Sys2Proof.Proofs
end

section
/-! PROOFS. The invariant (10_state.md R36): every Step and every event of the host keep it, and Reset establishes it. -/

namespace Sys2Proof.Machine

/-! ## What keeps the invariant -/

/-- Where no key is awaited the last clause of the invariant says nothing. -/
theorem State.Inv.of_normal {s : State} (hmem : s.mem.wf = true) (hdepth : s.sp ≤ 16)
    (hentries : ∀ a ∈ s.stack, a.toNat ≤ 0xFFE) (hpc : s.pc.toNat ≤ 0x10FE) (hwait : s.wait = .normal) : s.Inv :=
  ⟨hmem, hdepth, hentries, hpc, fun _ h => nomatch hwait.symm.trans h⟩

theorem State.Inv.halt {s : State} (hs : s.Inv) (hwait : s.wait = .normal) (err : ErrorRecord) : (s.halt err).Inv :=
  .of_normal hs.memory hs.depth hs.entries hs.pcRange hwait

theorem State.Inv.tick {s : State} (hs : s.Inv) : s.tick.Inv :=
  ⟨hs.memory, hs.depth, hs.entries, hs.pcRange, hs.awaiting⟩

theorem State.Inv.endStep {s : State} (hs : s.Inv) : s.endStep.Inv := by
  unfold State.endStep
  split
  · exact hs.tick
  · exact hs

theorem State.Inv.setKey {s : State} (hs : s.Inv) (k : Key) (held : Bool) : (s.setKey k held).Inv :=
  ⟨hs.memory, hs.depth, hs.entries, hs.pcRange, hs.awaiting⟩

/-- A Step fetches at 0xFFE at most, so neither an advance nor a skip wraps (R18). -/
theorem nextPc_toNat_le {pc d : Word16} (hpc : pc.toNat ≤ 0xFFE) (hd : d.toNat ≤ 4) :
    (pc + d).toNat ≤ 0x1002 := by
  rw [BitVec.toNat_add]
  omega

/-! ## An instruction that completes -/

namespace Completes

variable {s t : State} {i : Instr}

theorem mem_wf (h : Completes s i t) (hs : s.Inv) : t.mem.wf = true := by
  cases h with
  | store m hi hwf => exact hwf hs.memory
  | _ => exact hs.memory

theorem depth_le (h : Completes s i t) (hs : s.Inv) : t.sp ≤ 16 := by
  cases h with
  | call nnn hdepth => exact (List.length_append (as := s.stack) (bs := [s.pc])).trans_le hdepth
  | ret d rest a hstack =>
    have hlen : s.sp = rest.length + 1 := by rw [State.sp, hstack, List.length_append]; rfl
    have hdepth := hs.depth
    exact show rest.length ≤ 16 by omega
  | _ => exact hs.depth

theorem entries_le (h : Completes s i t) (hs : s.Inv) (hpc : s.pc.toNat ≤ 0xFFE) :
    ∀ a ∈ t.stack, a.toNat ≤ 0xFFE := by
  cases h with
  | call nnn hdepth =>
    intro a ha
    rcases List.mem_append.mp ha with ha | ha
    · exact hs.entries a ha
    · exact List.mem_singleton.mp ha ▸ hpc
  | ret d rest b hstack => exact fun a ha => hs.entries a (hstack ▸ List.mem_append_left [b] ha)
  | _ => exact hs.entries

theorem pc_le (h : Completes s i t) (hs : s.Inv) (hpc : s.pc.toNat ≤ 0xFFE) : t.pc.toNat ≤ 0x10FE := by
  have hnext {d : Word16} (hd : d.toNat ≤ 4) : (s.pc + d).toNat ≤ 0x10FE :=
    (nextPc_toNat_le hpc hd).trans (by decide)
  cases h with
  | skip c => cases c <;> exact hnext (by decide)
  | jump a ha => exact ha
  | call nnn hdepth => exact (address_toNat nnn).trans_le (by omega)
  | ret d rest a hstack =>
    have ha : a.toNat ≤ 0xFFE := hs.entries a (hstack ▸ List.mem_append_right rest (List.mem_singleton_self a))
    exact (nextPc_toNat_le ha (by decide)).trans (by decide)
  | enterWait x => exact hs.pcRange
  | keepWait x => exact hs.pcRange
  | _ => exact hnext (by decide)

/-- A wait pending after the instruction is the one that its LD Vx,K entered, with `pc` still on it. -/
theorem awaiting_of_normal (h : Completes s i t) (hwait : s.wait = .normal) (hrun : s.status = .running)
    (hfetch : fetchWord s.mem s.pc.toNat = .ok (encode i)) (r : Reg) (hr : t.wait = .awaitingKey r) :
    t.status = .running ∧ fetchWord t.mem t.pc.toNat = .ok (encode (.ldVxK r)) := by
  cases h with
  | enterWait x =>
    cases hr
    exact ⟨hrun, hfetch⟩
  | _ => cases hwait.symm.trans hr

end Completes

/-- A Step that fetches an instruction in `Normal` keeps the invariant. -/
theorem Completes.inv {s t : State} {i : Instr} (h : Completes s i t) (hs : s.Inv) (hwait : s.wait = .normal)
    (hrun : s.status = .running) (hfetch : fetchWord s.mem s.pc.toNat = .ok (encode i)) : t.Inv :=
  have hpc := (fetchWord_eq_ok hfetch).1
  ⟨h.mem_wf hs, h.depth_le hs, h.entries_le hs hpc, h.pc_le hs hpc, h.awaiting_of_normal hwait hrun hfetch⟩

/-! ## Events -/

theorem step_keeps_inv {s t : State} (hs : s.Inv) (h : step s = .next t) : t.Inv := by
  cases hwait : s.wait with
  | awaitingKey r =>
    cases (step_of_awaiting hs hwait).symm.trans h
    exact hs.tick
  | normal =>
    rcases step_cases h with ⟨_, -, rfl⟩ | ⟨-, a, -, rfl⟩ | ⟨-, raw, e, -, -, rfl⟩ |
      ⟨hrun, raw, i, u, hfetch, hdecode, hu, rfl⟩
    · exact hs
    · exact hs.halt hwait _
    · exact hs.halt hwait _
    · rcases exec_ends hu with ⟨kind, info, rfl, -, -⟩ | ⟨-, hc⟩
      · exact hs.halt hwait _
      · have hword : encode i = raw := (isInstrOf_of_decodeWord hdecode).1
        exact (hc.inv hs hwait hrun (hword ▸ hfetch)).endStep

theorem keyDown_keeps_inv {s t : State} {k : Key} (hs : s.Inv) (h : event (.keyDown k) s = .next t) : t.Inv := by
  cases hstatus : s.status with
  | halted err =>
    cases (event_keyDown_of_halted k hstatus).symm.trans h
    exact hs
  | running =>
    cases hwait : s.wait with
    | normal =>
      cases (event_keyDown_of_normal k hstatus hwait).symm.trans h
      exact hs.setKey k true
    | awaitingKey r =>
      cases (event_keyDown_of_awaiting k hstatus hwait).symm.trans h
      have hpc : s.pc.toNat ≤ 0xFFE := (fetchWord_eq_ok (hs.awaiting r hwait).2).1
      exact .of_normal hs.memory hs.depth hs.entries ((nextPc_toNat_le hpc (by decide)).trans (by decide)) rfl

theorem keyUp_keeps_inv {s t : State} {k : Key} (hs : s.Inv) (h : event (.keyUp k) s = .next t) : t.Inv := by
  cases hstatus : s.status with
  | halted err =>
    cases (event_keyUp_of_halted k hstatus).symm.trans h
    exact hs
  | running =>
    cases (event_keyUp_of_running k hstatus).symm.trans h
    exact hs.setKey k false

theorem resetWith_inv (s : State) (font : Font) {rom : List Byte} (h : rom.length ≤ 3584) :
    (s.resetWith font rom).Inv :=
  .of_normal (wf_resetMemory font h) (Nat.zero_le 16) nofun (show 0x200 ≤ 0x10FE by decide) rfl

theorem reset_establishes_inv {font : Font} {rom : List Byte} {s t : State}
    (h : event (.reset font rom) s = .next t) : t.Inv := by
  by_cases hlen : rom.length ≤ 3584
  · cases (event_reset_of_le font s hlen).symm.trans h
    exact resetWith_inv s font hlen
  · cases (event_reset_of_gt font s (Nat.not_le.mp hlen)).symm.trans h

theorem event_keeps_inv {e : Event} {s t : State} (hs : s.Inv) (h : event e s = .next t) : t.Inv := by
  cases e with
  | step => exact step_keeps_inv hs h
  | keyDown k => exact keyDown_keeps_inv hs h
  | keyUp k => exact keyUp_keeps_inv hs h
  | reset font rom => exact reset_establishes_inv h

end Sys2Proof.Machine

namespace Sys2Proof.Proofs

open Sys2Proof.Machine

/-- Settles O48: memory lists nothing, the stack is empty and no wait is pending. -/
theorem invariantAtReset : Obligations.InvariantAtReset := .of_normal rfl (by decide) nofun (by decide) rfl

/-- Settles O49: a pending wait makes the Step a timer phase; without one, a raise writes `status` alone, and each way of
completing keeps each clause. -/
theorem stepKeepsInvariant : Obligations.StepKeepsInvariant := fun _ _ hs h => step_keeps_inv hs h

/-- Settles O50: a key event touches only flags, and a KeyDown that resolves a wait advances a `pc` at which a fetch
succeeds. -/
theorem eventKeepsInvariant : Obligations.EventKeepsInvariant :=
  ⟨fun _ _ _ hs h => event_keeps_inv hs h, fun _ _ _ _ h => reset_establishes_inv h⟩

end Sys2Proof.Proofs
end
